-- ==== Sys2Proof/Word.lean ====
section
/-! DEFINITION. The word types of the machine: 32-bit words (R8, R23), bytes, and 16-bit instruction words (R80). -/

namespace Sys2Proof

/-- A 32-bit word: a register, an evaluation-stack element, an address, a memory word (R23, R50). -/
abbrev Word := BitVec 32

/-- A byte of memory (R50, R52). -/
abbrev Byte := BitVec 8

/-- An instruction word: "All instructions are 16 bits wide." (R80) -/
abbrev Ins := BitVec 16

end Sys2Proof
end

