-- ==== Sys2Proof/Syntax.lean ====
section
/-! DEFINITION. The instructions: one constructor per row of spec/opcode_table.json, with the operands its encoding holds
(30_encoding.md). -/

namespace Sys2Proof

/-- The stack movement field S, and the return-stack movement RS of XFER: "Can be -1,0 or 1, specified by modifiers
SM1,S0,S1" (R84, R90). -/
inductive StackMove where
  /-- S = 0 (modifier S0, bits 00). -/
  | s0
  /-- S = +1 (modifier S1, bits 01). -/
  | s1
  /-- S = -1 (modifier SM1, bits 11). -/
  | sm1
deriving DecidableEq, Repr

/-- The comparison selector of CMP and CMPU, operand bits 2, 1, 0 (R87, R88). -/
structure Selector where
  /-- "if 1, invert comparison result" -/
  ci : Bool
  /-- "if 1, test if X is equal to Y" -/
  ce : Bool
  /-- "if 1, test if Y is less than X" -/
  cl : Bool
deriving DecidableEq, Repr

/-- The base register of LOAD and STORE: bit 0, FP by default, BP with modifier B (R89). -/
inductive Base where
  | fp
  | bp
deriving DecidableEq, Repr

/-- The register specification of LOADREG and STOREREG (R35, R94). -/
inductive Reg where
  | fp
  | bp
  | rp
deriving DecidableEq, Repr

/-- An instruction. Offsets and constants are held as the bits of their field, LOAD, STORE and CBRANCH offsets with their
implied bit 0 (R89, R91). -/
inductive Instr where
  /-- BRANCH (R120), format B. -/
  | branch (offset : BitVec 13)
  /-- ADD (R131), format A with `s`, `x2y`, as the next fifteen. -/
  | add (s : StackMove) (x2y : Bool)
  /-- SUB (R132). -/
  | sub (s : StackMove) (x2y : Bool)
  /-- NOT (R133). -/
  | not (s : StackMove) (x2y : Bool)
  /-- AND (R134). -/
  | and (s : StackMove) (x2y : Bool)
  /-- OR (R135). -/
  | or (s : StackMove) (x2y : Bool)
  /-- XOR (R136). -/
  | xor (s : StackMove) (x2y : Bool)
  /-- CMP (R137), signed. -/
  | cmp (s : StackMove) (x2y : Bool) (sel : Selector)
  /-- Y (R138). -/
  | y (s : StackMove) (x2y : Bool)
  /-- SHR (R139), with the bit XT (R86). -/
  | shr (s : StackMove) (x2y : Bool) (xt : Bool)
  /-- SHL (R140). -/
  | shl (s : StackMove) (x2y : Bool) (operand : BitVec 4)
  /-- INC (R141). -/
  | inc (s : StackMove) (x2y : Bool) (operand : BitVec 4)
  /-- DEC (R142). -/
  | dec (s : StackMove) (x2y : Bool) (operand : BitVec 4)
  /-- CMPU (R143), unsigned. -/
  | cmpu (s : StackMove) (x2y : Bool) (sel : Selector)
  /-- BPLC (R144). -/
  | bplc (s : StackMove) (x2y : Bool)
  /-- BROT (R145). -/
  | brot (s : StackMove) (x2y : Bool)
  /-- BSEL (R146). -/
  | bsel (s : StackMove) (x2y : Bool)
  /-- STORE (R190), format M. -/
  | store (offset : BitVec 13) (base : Base)
  /-- XFER (R175), format X. -/
  | xfer (rs : StackMove) (r2p p2r : Bool) (s : StackMove) (x2p : Bool)
  /-- LOAD (R191), format M. -/
  | load (offset : BitVec 13) (base : Base)
  /-- CBRANCH (R121), format CB: `n` is the bit N, branch if X is nonzero. -/
  | cbranch (offset : BitVec 13) (n : Bool)
  /-- LOADC (R192), format C. -/
  | loadc (constant : BitVec 13)
  /-- LOADREG (R205), format ER. -/
  | loadreg (reg : Reg)
  /-- STOREREG (R206), format ER. -/
  | storereg (reg : Reg)
  /-- LOADI (R193), format EM. -/
  | loadi (s : StackMove) (x2y : Bool)
  /-- STOREI (R194), format EM. -/
  | storei (s : StackMove) (x2y : Bool) (increment : BitVec 4)
  /-- FPADJ (R207), format EF. -/
  | fpadj (constant : BitVec 10)
  /-- LOADREL (R195), format EL. -/
  | loadrel (offset : BitVec 10)
  /-- The reserved words of EXT code 010 (R98 (a)); `rest` is bits 9 to 0. -/
  | reservedExt010 (rest : BitVec 10)
  /-- The reserved words of EXT code 100 (R98 (a)). -/
  | reservedExt100 (rest : BitVec 10)
  /-- The reserved words of EXT code 110 (R98 (a)). -/
  | reservedExt110 (rest : BitVec 10)
  /-- The reserved words of EXT code 111 (R98 (a)). -/
  | reservedExt111 (rest : BitVec 10)
  /-- DROP (R165), alias of `Y.SM1`. -/
  | drop
  /-- SWAP (R166), alias of `Y.S0.X2Y`. -/
  | swap
  /-- OVER (R167), alias of `Y.S1.X2Y`. -/
  | over
  /-- DUP (R168), alias of `INC.S1.X2Y 0`. -/
  | dup
  /-- NIP (R169), alias of `INC.SM1 0`. -/
  | nip
  /-- JUMP (R176), alias of `XFER.SM1.X2P`. -/
  | jump
  /-- CALL (R177), alias of `XFER.RS1.SM1.P2R.X2P`. -/
  | call
  /-- RET (R178), alias of `XFER.RSM1.R2P`. -/
  | ret
  /-- LOADCP (R196), the assembler's LOADREL to a constant-pool word at distance `offset`. -/
  | loadcp (offset : BitVec 10)
deriving DecidableEq, Repr

end Sys2Proof
end

