-- ==== Sys2Proof/WellFormed.lean ====
section
/-! DEFINITION. Which instruction terms the encoding admits, and which of those the spec calls well formed. -/

namespace Sys2Proof

/-- The field values the encodings of 30_encoding.md can hold: the offsets of LOAD, STORE and CBRANCH are even (R89,
R91); XFER has S = 0 or -1 and not both R2P and X2P (R98 (b), (c), R175); a LOADCP offset is "at most 1022" (R105).
Every other field admits all its values. -/
def Instr.encodable : Instr → Bool
  | .store offset _ => !offset.getLsbD 0
  | .load offset _ => !offset.getLsbD 0
  | .cbranch offset _ => !offset.getLsbD 0
  | .xfer _ r2p _ s x2p => s != .s1 && !(r2p && x2p)
  | .loadcp offset => decide (offset.toNat ≤ 1022)
  | .branch _ | .add _ _ | .sub _ _ | .not _ _ | .and _ _ | .or _ _ | .xor _ _ | .cmp _ _ _ | .y _ _ | .shr _ _ _
  | .shl _ _ _ | .inc _ _ _ | .dec _ _ _ | .cmpu _ _ _ | .bplc _ _ | .brot _ _ | .bsel _ _ | .loadc _ | .loadreg _
  | .storereg _ | .loadi _ _ | .storei _ _ _ | .fpadj _ | .loadrel _ | .reservedExt010 _ | .reservedExt100 _
  | .reservedExt110 _ | .reservedExt111 _ | .drop | .swap | .over | .dup | .nip | .jump | .call | .ret => true

/-- Encodable, and a BRANCH has an even offset: "a well-formed BRANCH has `ins[0] = 0`" (R81). An odd one still decodes
(R98) and faults when it is executed (R120). -/
def Instr.wellFormed : Instr → Bool
  | .branch offset => !offset.getLsbD 0
  | i => i.encodable

end Sys2Proof
end

