-- ==== Sys2Proof/Decode.lean ====
section
/-! DEFINITION. The decoder of rule R107 and the encoder of 30_encoding.md, written from the same format tables. -/

namespace Sys2Proof

/-- Why a word is no instruction: the reserved encodings of R98 that stand in no row of the opcode table. -/
inductive DecodeError where
  /-- R98 (b): S = 10 in format A, EM or X, or RS = 10 in format X. -/
  | reservedMove
  /-- R98 (b), (c): format X with S = +1, or with both R2P and X2P. -/
  | reservedTransfer
  /-- R98 (d): format ER with a register specification above 0010. -/
  | reservedRegister
  /-- R98 (e): CMP or CMPU with operand bit 3 set. -/
  | reservedSelector
  /-- Fewer than two bytes: every instruction is 16 bits (R80, R99). -/
  | truncated
deriving DecidableEq, Repr

/-! ## Fields -/

/-- Bits `lo + len - 1` to `lo` of an instruction word (R7). -/
def field (w : Ins) (lo len : Nat) : BitVec len := w.extractLsb' lo len

/-- The two-bit movement field: 00 is 0, 01 is +1, 11 is -1, 10 is reserved (R84, R90). -/
def decodeMove (f : BitVec 2) : Option StackMove :=
  if f = 0b00#2 then some .s0
  else if f = 0b01#2 then some .s1
  else if f = 0b11#2 then some .sm1
  else none

/-- The bits of a movement (R84). -/
def encodeMove : StackMove → BitVec 2
  | .s0 => 0b00#2
  | .s1 => 0b01#2
  | .sm1 => 0b11#2

/-- The register specification: FP = 0000, BP = 0001, RP = 0010 (R94). -/
def decodeReg (f : BitVec 4) : Option Reg :=
  if f = 0#4 then some .fp
  else if f = 1#4 then some .bp
  else if f = 2#4 then some .rp
  else none

/-- The bits of a register specification (R94). -/
def encodeReg : Reg → BitVec 4
  | .fp => 0#4
  | .bp => 1#4
  | .rp => 2#4

/-- The base register of formats M: bit 0 set is BP (R89). -/
def decodeBase (b : Bool) : Base := if b then .bp else .fp

/-- The bit B of a base register (R89). -/
def encodeBase : Base → Bool
  | .fp => false
  | .bp => true

/-- The comparison selector of operand bits 2, 1, 0; bit 3 set is reserved (R88). -/
def decodeSelector (f : BitVec 4) : Option Selector :=
  if f.getLsbD 3 then none else some ⟨f.getLsbD 2, f.getLsbD 1, f.getLsbD 0⟩

/-- The operand bits of a comparison selector (R88). -/
def encodeSelector (sel : Selector) : BitVec 4 :=
  0#1 ++ BitVec.ofBool sel.ci ++ BitVec.ofBool sel.ce ++ BitVec.ofBool sel.cl

/-! ## The decoder -/

/-- CMP and CMPU: the selector is checked (R98 (e)). -/
def decodeCompare (make : Selector → Instr) (operand : BitVec 4) : Except DecodeError Instr :=
  match decodeSelector operand with
  | none => .error .reservedSelector
  | some sel => .ok (make sel)

/-- Format A: the function is bits 12 to 9 (R82, R83). -/
def decodeAlu (w : Ins) : Except DecodeError Instr :=
  match decodeMove (field w 4 2) with
  | none => .error .reservedMove
  | some s =>
    let x2y := w.getLsbD 6
    let operand := field w 0 4
    match (field w 9 4).toNat with
    | 0 => .ok (.add s x2y)
    | 1 => .ok (.sub s x2y)
    | 2 => .ok (.not s x2y)
    | 3 => .ok (.and s x2y)
    | 4 => .ok (.or s x2y)
    | 5 => .ok (.xor s x2y)
    | 6 => decodeCompare (.cmp s x2y) operand
    | 7 => .ok (.y s x2y)
    | 8 => .ok (.shr s x2y (w.getLsbD 7))
    | 9 => .ok (.shl s x2y operand)
    | 10 => .ok (.inc s x2y operand)
    | 11 => .ok (.dec s x2y operand)
    | 12 => decodeCompare (.cmpu s x2y) operand
    | 13 => .ok (.bplc s x2y)
    | 14 => .ok (.brot s x2y)
    | _ => .ok (.bsel s x2y)

/-- Format X (R90), with the checks of R98 (b) and (c). -/
def decodeXfer (w : Ins) : Except DecodeError Instr :=
  match decodeMove (field w 8 2), decodeMove (field w 4 2) with
  | some rs, some s =>
    if s = .s1 || (w.getLsbD 7 && w.getLsbD 0) then .error .reservedTransfer
    else .ok (.xfer rs (w.getLsbD 7) (w.getLsbD 6) s (w.getLsbD 0))
  | _, _ => .error .reservedMove

/-- The even 13-bit offset of formats M and CB: bits 12 to 1 of the word, bit 0 being 0 (R89, R91). -/
def evenOffset (w : Ins) : BitVec 13 := field w 1 12 ++ 0#1

/-- Format ER: bit 9 tells write from read (R94), with the check of R98 (d). -/
def decodeRegister (w : Ins) : Except DecodeError Instr :=
  match decodeReg (field w 0 4) with
  | none => .error .reservedRegister
  | some r => .ok (if w.getLsbD 9 then .storereg r else .loadreg r)

/-- Format EM: bit 9 tells write from read (R95), with the check of R98 (b). -/
def decodeIndirect (w : Ins) : Except DecodeError Instr :=
  match decodeMove (field w 4 2) with
  | none => .error .reservedMove
  | some s =>
    .ok (if w.getLsbD 9 then .storei s (w.getLsbD 6) (field w 0 4) else .loadi s (w.getLsbD 6))

/-- The EXT group: bits 12 to 10 select (R93). -/
def decodeExt (w : Ins) : Except DecodeError Instr :=
  match (field w 10 3).toNat with
  | 0 => decodeRegister w
  | 1 => decodeIndirect w
  | 2 => .ok (.reservedExt010 (field w 0 10))
  | 3 => .ok (.fpadj (field w 0 10))
  | 4 => .ok (.reservedExt100 (field w 0 10))
  | 5 => .ok (.loadrel (field w 0 10))
  | 6 => .ok (.reservedExt110 (field w 0 10))
  | _ => .ok (.reservedExt111 (field w 0 10))

/-- The decoding procedure of R107: one of the 28 machine instructions, or a reserved encoding. Unused bits are skipped
(R97). -/
def decodeMachine (w : Ins) : Except DecodeError Instr :=
  match (field w 13 3).toNat with
  | 0 => .ok (.branch (field w 0 13))
  | 1 => decodeAlu w
  | 2 => .ok (.store (evenOffset w) (decodeBase (w.getLsbD 0)))
  | 3 => decodeXfer w
  | 4 => .ok (.load (evenOffset w) (decodeBase (w.getLsbD 0)))
  | 5 => .ok (.cbranch (evenOffset w) (w.getLsbD 0))
  | 6 => .ok (.loadc (field w 0 13))
  | _ => decodeExt w

/-! ## Aliases -/

/-- The machine instruction an alias or the pseudo-instruction stands for (R104, R196); a machine instruction stands for
itself. -/
def Instr.machine : Instr → Instr
  | .drop => .y .sm1 false
  | .swap => .y .s0 true
  | .over => .y .s1 true
  | .dup => .inc .s1 true 0#4
  | .nip => .inc .sm1 false 0#4
  | .jump => .xfer .s0 false false .sm1 true
  | .call => .xfer .s1 false true .sm1 true
  | .ret => .xfer .sm1 true false .s0 false
  | .loadcp offset => .loadrel offset
  | i => i

/-- The name R104 gives a setting of Y, INC or XFER that has one; every other instruction keeps its own. DESIGN CHOICE
(log entry 6), safe: both names have one meaning. -/
def Instr.named (i : Instr) : Instr :=
  if i = .y .sm1 false then .drop
  else if i = .y .s0 true then .swap
  else if i = .y .s1 true then .over
  else if i = .inc .s1 true 0#4 then .dup
  else if i = .inc .sm1 false 0#4 then .nip
  else if i = .xfer .s0 false false .sm1 true then .jump
  else if i = .xfer .s1 false true .sm1 true then .call
  else if i = .xfer .sm1 true false .s0 false then .ret
  else i

/-- The spelling the decoder gives an instruction: an alias where R104 has one. Only the eight alias settings of Y, INC
and XFER and the LOADCP terms are spelled otherwise. -/
def Instr.canonical (i : Instr) : Bool := i.machine.named == i

/-- The instruction of a word: R107, spelled with the alias of R104 where there is one. -/
def decode (w : Ins) : Except DecodeError Instr :=
  match decodeMachine w with
  | .error e => .error e
  | .ok i => .ok i.named

/-- The instruction at the head of a list of bytes: the byte at the lower address is the upper half of the word (R52,
R53). -/
def decodeBytes : List Byte → Except DecodeError Instr
  | upper :: lower :: _ => decode (upper ++ lower)
  | _ => .error .truncated

/-- The instruction whose bits are the low `nbits` of `w`, laid out in memory and given to the decoder. -/
def decodeTableWord (nbits w : Nat) : Option Instr :=
  let ins : Ins := BitVec.ofNat 16 (w % 2 ^ nbits)
  match decodeBytes [ins.extractLsb' 8 8, ins.extractLsb' 0 8] with
  | .ok i => some i
  | .error _ => none

/-! ## The encoder -/

/-- Format A (R82): `001 aluop u XT X2Y S operand`. -/
def formatA (aluop : BitVec 4) (xt x2y : Bool) (s : StackMove) (operand : BitVec 4) : Ins :=
  0b001#3 ++ aluop ++ 0#1 ++ BitVec.ofBool xt ++ BitVec.ofBool x2y ++ encodeMove s ++ operand

/-- Format M and format CB (R89, R91): three opcode bits, bits 12 to 1 of the offset, one flag bit. -/
def formatM (op : BitVec 3) (offset : BitVec 13) (flag : Bool) : Ins :=
  op ++ offset.extractLsb' 1 12 ++ BitVec.ofBool flag

/-- Format X (R90): `011 uuu RS R2P P2R S uuu X2P`. -/
def formatX (rs : StackMove) (r2p p2r : Bool) (s : StackMove) (x2p : Bool) : Ins :=
  0b011#3 ++ 0#3 ++ encodeMove rs ++ BitVec.ofBool r2p ++ BitVec.ofBool p2r ++ encodeMove s ++ 0#3 ++ BitVec.ofBool x2p

/-- Format ER (R94): `111 000 W uuuuu reg`. -/
def formatER (write : Bool) (r : Reg) : Ins :=
  0b111000#6 ++ BitVec.ofBool write ++ 0#5 ++ encodeReg r

/-- Format EM (R95): `111 001 W uu X2Y S operand`. -/
def formatEM (write x2y : Bool) (s : StackMove) (operand : BitVec 4) : Ins :=
  0b111001#6 ++ BitVec.ofBool write ++ 0#2 ++ BitVec.ofBool x2y ++ encodeMove s ++ operand

/-- The EXT words with a ten-bit operand (R93, R96). -/
def formatE (ext : BitVec 3) (operand : BitVec 10) : Ins := 0b111#3 ++ ext ++ operand

/-- The word of an instruction, unused bits 0: the canonical encoding of R97. The terms of an encodable instruction are
read back by `decode`. -/
def encode : Instr → Ins
  | .branch offset => 0b000#3 ++ offset
  | .add s x2y => formatA 0b0000#4 false x2y s 0#4
  | .sub s x2y => formatA 0b0001#4 false x2y s 0#4
  | .not s x2y => formatA 0b0010#4 false x2y s 0#4
  | .and s x2y => formatA 0b0011#4 false x2y s 0#4
  | .or s x2y => formatA 0b0100#4 false x2y s 0#4
  | .xor s x2y => formatA 0b0101#4 false x2y s 0#4
  | .cmp s x2y sel => formatA 0b0110#4 false x2y s (encodeSelector sel)
  | .y s x2y => formatA 0b0111#4 false x2y s 0#4
  | .shr s x2y xt => formatA 0b1000#4 xt x2y s 0#4
  | .shl s x2y operand => formatA 0b1001#4 false x2y s operand
  | .inc s x2y operand => formatA 0b1010#4 false x2y s operand
  | .dec s x2y operand => formatA 0b1011#4 false x2y s operand
  | .cmpu s x2y sel => formatA 0b1100#4 false x2y s (encodeSelector sel)
  | .bplc s x2y => formatA 0b1101#4 false x2y s 0#4
  | .brot s x2y => formatA 0b1110#4 false x2y s 0#4
  | .bsel s x2y => formatA 0b1111#4 false x2y s 0#4
  | .store offset base => formatM 0b010#3 offset (encodeBase base)
  | .xfer rs r2p p2r s x2p => formatX rs r2p p2r s x2p
  | .load offset base => formatM 0b100#3 offset (encodeBase base)
  | .cbranch offset n => formatM 0b101#3 offset n
  | .loadc constant => 0b110#3 ++ constant
  | .loadreg r => formatER false r
  | .storereg r => formatER true r
  | .loadi s x2y => formatEM false x2y s 0#4
  | .storei s x2y increment => formatEM true x2y s increment
  | .fpadj constant => formatE 0b011#3 constant
  | .loadrel offset => formatE 0b101#3 offset
  | .reservedExt010 rest => formatE 0b010#3 rest
  | .reservedExt100 rest => formatE 0b100#3 rest
  | .reservedExt110 rest => formatE 0b110#3 rest
  | .reservedExt111 rest => formatE 0b111#3 rest
  | .drop => formatA 0b0111#4 false false .sm1 0#4
  | .swap => formatA 0b0111#4 false true .s0 0#4
  | .over => formatA 0b0111#4 false true .s1 0#4
  | .dup => formatA 0b1010#4 false true .s1 0#4
  | .nip => formatA 0b1010#4 false false .sm1 0#4
  | .jump => formatX .s0 false false .sm1 true
  | .call => formatX .s1 false true .sm1 true
  | .ret => formatX .sm1 true false .s0 false
  | .loadcp offset => formatE 0b101#3 offset

/-- The bits of an instruction's word that its row of the opcode table marks unused (R97): they do not take part in
decoding. -/
def Instr.unusedBits : Instr → Ins
  | .add _ _ | .sub _ _ | .not _ _ | .and _ _ | .or _ _ | .xor _ _ | .y _ _ | .bplc _ _ | .brot _ _ | .bsel _ _
  | .drop | .swap | .over | .loadi _ _ => 0x018F#16
  | .cmp _ _ _ | .cmpu _ _ _ | .shl _ _ _ | .inc _ _ _ | .dec _ _ _ | .dup | .nip | .storei _ _ _ => 0x0180#16
  | .shr _ _ _ => 0x010F#16
  | .xfer _ _ _ _ _ | .jump | .call | .ret => 0x1C0E#16
  | .loadreg _ | .storereg _ => 0x01F0#16
  | .branch _ | .store _ _ | .load _ _ | .cbranch _ _ | .loadc _ | .fpadj _ | .loadrel _ | .reservedExt010 _
  | .reservedExt100 _ | .reservedExt110 _ | .reservedExt111 _ | .loadcp _ => 0#16

end Sys2Proof
end

