-- ==== Sys2Proof/Config.lean ====
section
/-! DEFINITION. What an implementation fixes: the parameters of R6 that the spec leaves open, and the free values. -/

namespace Sys2Proof.Config

/-- `RSTACK_DISCIPLINE` (R6, R175 (c)): the order of the pointer move and the memory access on the return stack.
`full`: RP names the newest return address. `empty`: RP names the next free word. -/
inductive RStackDiscipline where
  | full
  | empty
deriving DecidableEq, Repr

/-- A run of `size` byte addresses from `base`, part of the address map `MEM` (R59). -/
structure Region where
  base : Nat
  size : Nat
deriving DecidableEq, Repr

/-- The parameters of R6 that stay open in the spec. They are data of `State` (which no step changes), so that a
statement about every state is a statement about every implementation (log entry 3). -/
structure Params where
  /-- `ESTACK_DEPTH`: "at least 32" (R25). -/
  estackDepth : Nat
  /-- `RSTACK_DISCIPLINE`, default `full` (R6). -/
  discipline : RStackDiscipline
  /-- `IFETCH_COHERENT`, default unset (R6, R66). -/
  ifetchCoherent : Bool
  /-- `RESET_PC`, default 0 (R6, R235). -/
  resetPc : Word
  /-- The domain of `MEM` (R37, R59): a word address exists where one of these regions holds it. -/
  map : List Region
deriving DecidableEq, Repr

/-- The parameters `State.reset` takes: the spec's defaults where R6 gives one (`full`, unset, 0); depth 32, the least
R25 allows, and every word address of the 32-bit space mapped. DESIGN CHOICE for the last two (log entries 3 and 4),
unsafe. -/
def defaultParams : Params :=
  ⟨32, .full, false, 0#32, [⟨0, 2 ^ 32⟩]⟩

/-- The n-th free value: a word the spec does not determine (an `undef` cell or an absent operand, R27 and R28, read as
"any value"). It has no body: no proof can learn what it is (log entry 2), safe. -/
opaque freeWord : Nat → Word

end Sys2Proof.Config
end

