-- ==== Sys2Proof/Machine/State.lean ====
section
/-! DEFINITION. The state of the machine (10_state.md), the reasons a step stops (R218), and the state after reset (R39,
R235). -/

namespace Sys2Proof.Machine

/-- The contents of memory: byte addresses and their bytes, in the canonical form `Memory.wf` (addresses strictly rising,
no byte equal to the one an unlisted address reads as). Which addresses exist is `Params.map`. -/
structure Memory where
  cells : List Host.Cell
deriving DecidableEq, Repr

/-- The whole state of the machine: "the evaluation stack `E`, the registers `FP`, `BP`, `RP`, the program counter `PC`,
and the memory `M`. There is nothing else" (10_state.md); with it the parameters of R6, the history R66 asks about, and
the model's own count of free values. -/
structure State where
  /-- The program counter: the address of the instruction being executed (R33). -/
  pc : Word
  /-- The evaluation stack, top first: X, Y, and the elements below (R26). -/
  estack : List Word
  /-- FP, the Frame Pointer Register (R22, R31). -/
  fp : Word
  /-- BP, the Base Pointer Register (R22, R32). -/
  bp : Word
  /-- RP, the Return Stack Pointer Register (R22, R30). -/
  rp : Word
  /-- The memory M (R37). -/
  mem : Memory
  /-- The word addresses the running program has stored to since reset (R66), strictly rising. -/
  written : List Nat
  /-- The parameters of the implementation (R6): no step changes them. -/
  params : Config.Params
  /-- The MODEL's own field: the number of the next free value (log entry 2). -/
  freeCount : Nat
deriving DecidableEq, Repr

/-- What an access was for, the information of an `UnmappedAccess` (R218). -/
inductive Access where
  | fetch
  | read
  | write
deriving DecidableEq, Repr

/-- The model faults of R218 that the model raises. Each names a situation to which the spec gives no effect; the run
stops and no state changes (R217). All are safe: the hardware may go on where the model stops. `StackUndefinedRead` and
`RegisterUndefinedRead` are not among them: the model takes R218's alternative for both (log entries 1 and 2). -/
inductive Fault where
  /-- R60: the word address is not in `MEM`. Raised by the fetch and by LOAD, STORE, LOADI, STOREI, LOADREL, XFER. Safe. -/
  | unmappedAccess (access : Access) (addr : Word)
  /-- R66: a fetch from a word the program has stored to, with `IFETCH_COHERENT` unset. Raised by the fetch. Safe. -/
  | fetchFromWrittenWord (addr : Word)
  /-- R98: the word is a reserved encoding; with the word and its PC. Raised by the decoder, by the reserved EXT rows and
  by XFER terms no word encodes. Safe. -/
  | reservedEncoding (word : Ins) (pc : Word)
  /-- R28 (c): the new depth would be negative; with the depth. Raised by every pop and every S = -1. Safe. -/
  | stackUnderflow (depth : Nat)
  /-- R28 (d): the new depth would exceed `ESTACK_DEPTH`; with the depth. Raised by every push and every S = +1. Safe. -/
  | stackOverflow (depth : Nat)
  /-- R33: the next PC would be odd; with the target. Raised by BRANCH and XFER, and by a step whose PC is odd already
  (log entry 9). Safe. -/
  | oddPC (target : Word)
deriving DecidableEq, Repr

/-- Why an instruction has no meaning in the model. No instruction is refused. -/
inductive Refusal where
  /-- The instruction of this mnemonic has no meaning yet; only `exec` would say so. Safe. -/
  | notModelled (mnemonic : String)
deriving DecidableEq, Repr

/-- The outcome of one instruction or one step. -/
abbrev Result := Host.Outcome State Fault Refusal

/-- The machine right after reset, for the parameters `p` and the memory image `image` that the host supplies (R235,
R241): PC is `RESET_PC`, the evaluation stack is empty, nothing has been stored yet. FP, BP and RP, which R39 leaves
"unspecified", hold 0: DESIGN CHOICE (log entry 1), unsafe. -/
def State.start (p : Config.Params) (image : Memory) : State :=
  { pc := p.resetPc, estack := [], fp := 0#32, bp := 0#32, rp := 0#32, mem := image, written := [], params := p,
    freeCount := 0 }

/-- The machine right after reset, with the parameters of `Config.defaultParams` and nothing listed in memory. -/
def State.reset : State := State.start Config.defaultParams ⟨[]⟩

end Sys2Proof.Machine
end

