-- ==== Sys2Proof/Machine/Memory.lean ====
section
/-! DEFINITION. Memory as bytes in one canonical form, its big-endian words (R52), the address map (R37, R59), and the set
of words stored to (R66). -/

namespace Sys2Proof.Machine

/-- What a byte no entry lists reads as. DESIGN CHOICE (log entry 4): 0; any other contents are listed. -/
def unlistedByte : Byte := 0#8

/-! ## Bytes -/

/-- The byte at `a` in a list of entries. -/
def cellAt : List Host.Cell → Nat → Byte
  | [], _ => unlistedByte
  | (k, b) :: rest, a => if k = a then b else cellAt rest a

/-- Write one byte, keeping the canonical form. -/
def setCell (a : Nat) (v : Byte) : List Host.Cell → List Host.Cell
  | [] => if v = unlistedByte then [] else [(a, v)]
  | (k, b) :: rest =>
    if k < a then (k, b) :: setCell a v rest
    else
      let above := if k = a then rest else (k, b) :: rest
      if v = unlistedByte then above else (a, v) :: above

/-- The canonical form from address `lo` upward: rising, inside the 32-bit space, no unlisted value listed. -/
def cellsWf : Nat → List Host.Cell → Bool
  | _, [] => true
  | lo, (k, b) :: rest => decide (lo ≤ k) && decide (k < 2 ^ 32) && b != unlistedByte && cellsWf (k + 1) rest

/-- The canonical form of a memory: addresses strictly rising and below 2^32, no entry that an unlisted address would
read as too. Equal memories are equal data. -/
def Memory.wf (m : Memory) : Bool := cellsWf 0 m.cells

/-- The byte at a byte address. -/
def Memory.readByte (m : Memory) (a : Nat) : Byte := cellAt m.cells a

/-- Write the byte at a byte address. -/
def Memory.writeByte (m : Memory) (a : Nat) (v : Byte) : Memory := ⟨setCell a v m.cells⟩

/-! ## Words -/

/-- The word address of an address: its two low bits are ignored (R54). -/
def wordAddr (a : Word) : Word := a &&& 0xFFFFFFFC#32

/-- The word whose first byte is at `a`: byte `a` is the most significant one (R52). -/
def Memory.readWord (m : Memory) (a : Nat) : Word :=
  m.readByte a ++ m.readByte (a + 1) ++ m.readByte (a + 2) ++ m.readByte (a + 3)

/-- Write all 32 bits of a word, most significant byte first (R52, R56). -/
def Memory.writeWord (m : Memory) (a : Nat) (v : Word) : Memory :=
  (((m.writeByte a (v.extractLsb' 24 8)).writeByte (a + 1) (v.extractLsb' 16 8)).writeByte (a + 2)
    (v.extractLsb' 8 8)).writeByte (a + 3) (v.extractLsb' 0 8)

/-! ## The address map -/

/-- The region holds the address. -/
def holdsAddr (r : Config.Region) (a : Nat) : Bool := decide (r.base ≤ a) && decide (a < r.base + r.size)

/-- The word address is one of those that exist (R37, R59). -/
def mapped (p : Config.Params) (a : Word) : Bool := p.map.any (holdsAddr · a.toNat)

/-! ## The words stored to -/

/-- Add a word address to the set of those stored to, kept strictly rising. -/
def addWritten (a : Nat) : List Nat → List Nat
  | [] => [a]
  | k :: rest => if k < a then k :: addWritten a rest else if k = a then k :: rest else a :: k :: rest

/-- The form of the set from `lo` upward: strictly rising word addresses of the 32-bit space. -/
def writtenWf : Nat → List Nat → Bool
  | _, [] => true
  | lo, k :: rest => decide (lo ≤ k) && decide (k < 2 ^ 32) && decide (k % 4 = 0) && writtenWf (k + 1) rest

end Sys2Proof.Machine
end

