-- ==== Sys2Proof/Machine/Ops.lean ====
section
/-! DEFINITION. The named operations of the machine: field updates, the memory primitives of R56, the stack updates of R27
with the checks of R28, and transfers of control (R33). There is no exception to take and none to return from (R215,
R219, R220): a model fault stops the run. -/

namespace Sys2Proof.Machine

/-! ## Updates of one field -/

/-- `PC <- v`. -/
def State.setPc (s : State) (v : Word) : State := { s with pc := v }

/-- `E <- v`. -/
def State.setStack (s : State) (v : List Word) : State := { s with estack := v }

/-- `FP <- v`. -/
def State.setFp (s : State) (v : Word) : State := { s with fp := v }

/-- `BP <- v`. -/
def State.setBp (s : State) (v : Word) : State := { s with bp := v }

/-- `RP <- v`. -/
def State.setRp (s : State) (v : Word) : State := { s with rp := v }

/-- `M[a] <- v`, all 32 bits, at the word address `a`; the word now counts as stored to (R56, R66). -/
def State.setWord (s : State) (a v : Word) : State :=
  { s with mem := s.mem.writeWord a.toNat v, written := addWritten a.toNat s.written }

/-- The free values of this instruction are used up: the next instruction's are others (log entry 2). -/
def State.tick (s : State) : State := { s with freeCount := s.freeCount + 3 }

/-- `PC + 2` modulo 2^32, the address of the next instruction (R33, R62). -/
def State.nextPc (s : State) : Word := s.pc + 2#32

/-- `PC <- PC + 2`, the end of every instruction that does not transfer control (R9, R33). -/
def State.advance (s : State) : State := s.setPc s.nextPc

/-! ## Memory -/

/-- `MemRead(addr, 4)` (R56): the word at `addr & ~3`, or `UnmappedAccess`. -/
def State.memRead (s : State) (addr : Word) : Except Fault Word :=
  if mapped s.params (wordAddr addr) then .ok (s.mem.readWord (wordAddr addr).toNat)
  else .error (.unmappedAccess .read (wordAddr addr))

/-- `MemWrite(addr, 4, v)` (R56): write the word at `addr & ~3`, or `UnmappedAccess`. -/
def State.memWrite (s : State) (addr v : Word) : Except Fault State :=
  if mapped s.params (wordAddr addr) then .ok (s.setWord (wordAddr addr) v)
  else .error (.unmappedAccess .write (wordAddr addr))

/-- The byte at a byte address, where the word that holds it exists. -/
def State.byteAt (s : State) (a : Word) : Option Byte :=
  if mapped s.params (wordAddr a) then some (s.mem.readByte a.toNat) else none

/-- The half of a word that an instruction address selects: the upper half where PC[1] = 0, else the lower (R53). -/
def selectHalf (pc w : Word) : Ins := if pc.getLsbD 1 then w.extractLsb' 0 16 else w.extractLsb' 16 16

/-- `Fetch(PC)` (R53, R56), with the checks of R60 and R66 in the order of R217. A PC that is odd already has no
instruction (R55; log entry 9). -/
def State.fetch (s : State) : Except Fault Ins :=
  let a := wordAddr s.pc
  if s.pc.getLsbD 0 then .error (.oddPC s.pc)
  else if !mapped s.params a then .error (.unmappedAccess .fetch a)
  else if !s.params.ifetchCoherent && s.written.contains a.toNat then .error (.fetchFromWrittenWord a)
  else .ok (selectHalf s.pc (s.mem.readWord a.toNat))

/-! ## The evaluation stack -/

/-- The fault of a stack movement, if it has one: below 0 (R28 (c)) or above `ESTACK_DEPTH` (R28 (d)). -/
def State.moveFault (s : State) : StackMove → Option Fault
  | .s0 => none
  | .s1 => if s.estack.length < s.params.estackDepth then none else some (.stackOverflow s.estack.length)
  | .sm1 => if s.estack.isEmpty then some (.stackUnderflow s.estack.length) else none

/-- The depth after a movement: `depth + S` (R27). -/
def movedDepth (depth : Nat) : StackMove → Nat
  | .s0 => depth
  | .s1 => depth + 1
  | .sm1 => depth - 1

/-- The stack update `upd(r, S, X2Y)` of R27: the row of its table, cut to the new depth. `undef` is the word the
undefined cell of the row S = +1, X2Y = 0 holds. -/
def updCells (r undef : Word) (m : StackMove) (x2y : Bool) (e : List Word) : List Word :=
  List.take (movedDepth e.length m) <|
    match m, x2y with
    | .s0, false => r :: e.drop 1
    | .s0, true => r :: e.take 1 ++ e.drop 2
    | .sm1, false => r :: e.drop 2
    | .sm1, true => r :: e.take 1 ++ e.drop 3
    | .s1, true => r :: e
    | .s1, false => r :: undef :: e.drop 1

/-- `push(v)`: "`E <- v :: E`" (R27). -/
def State.push (s : State) (v : Word) : State := s.setStack (v :: s.estack)

/-- `pop()`: "`E <- tail(E)`" (R27). -/
def State.pop (s : State) : State := s.setStack s.estack.tail

/-- `push(v)` at the end of an instruction, or `StackOverflow` (R27, R28 (d)). -/
def State.pushNext (s : State) (v : Word) : Result :=
  match s.moveFault .s1 with
  | some e => .fault e
  | none => .next (s.push v).advance

/-! ## Transfer of control -/

/-- `PC <- target`, or `OddPC` where the target is odd (R33). -/
def State.transfer (s : State) (target : Word) : Result :=
  if target.getLsbD 0 then .fault (.oddPC target) else .next (s.setPc target)

end Sys2Proof.Machine
end

