-- ==== Sys2Proof/Machine/Operands.lean ====
section
/-! DEFINITION. The operand forms: X and Y, the registers, immediates, and the four addressing modes of 44_load_store.md. -/

namespace Sys2Proof.Machine

/-! ## Implicit operands -/

/-- The operand X = E[0]. Absent, it is a free value: R28 (b) lets a model go on with "any value" (log entry 2), safe. -/
def State.x (s : State) : Word := s.estack.head?.getD (Config.freeWord s.freeCount)

/-- The operand Y = E[1]. Absent, it is a free value (R28 (b), log entry 2), safe. -/
def State.y (s : State) : Word := s.estack.tail.head?.getD (Config.freeWord (s.freeCount + 1))

/-- The word in the cell that S = +1 without X2Y exposes, `undef` in R27: a free value (R38, log entry 2), safe. -/
def State.undefCell (s : State) : Word := Config.freeWord (s.freeCount + 2)

/-- `upd(r, S, X2Y)` (R27); the free values it may have used are used up. -/
def State.upd (s : State) (r : Word) (m : StackMove) (x2y : Bool) : State :=
  (s.setStack (updCells r s.undefCell m x2y s.estack)).tick

/-! ## Registers -/

/-- Read FP, BP or RP (R35). -/
def State.readReg (s : State) : Reg → Word
  | .fp => s.fp
  | .bp => s.bp
  | .rp => s.rp

/-- Write FP, BP or RP, all 32 bits (R35, R206). -/
def State.writeReg (s : State) (r : Reg) (v : Word) : State :=
  match r with
  | .fp => s.setFp v
  | .bp => s.setBp v
  | .rp => s.setRp v

/-- The base register of LOAD and STORE (R89). -/
def State.baseReg (s : State) : Base → Word
  | .fp => s.fp
  | .bp => s.bp

/-! ## Immediates -/

/-- `sext_13` (R9): the signed constant of BRANCH, CBRANCH and LOADC (R81, R91, R92). -/
def sext13 (v : BitVec 13) : Word := v.signExtend 32

/-- `sext_10` (R9): the signed constant of FPADJ (R96). -/
def sext10 (v : BitVec 10) : Word := v.signExtend 32

/-- `zext_13` (R9): the offset of LOAD and STORE (R89). -/
def zext13 (v : BitVec 13) : Word := v.setWidth 32

/-- `zext_10` (R9): the offset of LOADREL (R96). -/
def zext10 (v : BitVec 10) : Word := v.setWidth 32

/-- `zext_4` (R9): the operand of INC, DEC and STOREI (R87, R95). -/
def zext4 (v : BitVec 4) : Word := v.setWidth 32

/-- The change of RP for a return-stack movement, `-4 * RS`: one entry is one word and the stack grows toward lower
addresses (R30, R175 (a)). -/
def movedRp (rp : Word) : StackMove → Word
  | .s0 => rp
  | .s1 => rp - 4#32
  | .sm1 => rp + 4#32

/-! ## Effective addresses -/

/-- Frame-relative and base-relative: FP or BP plus the offset, modulo 2^32 (R190, R191, R62). -/
def State.localAddr (s : State) (offset : BitVec 13) (b : Base) : Word := s.baseReg b + zext13 offset

/-- PC-relative: the address of the LOADREL plus the offset, modulo 2^32 (R195). -/
def State.relAddr (s : State) (offset : BitVec 10) : Word := s.pc + zext10 offset

/-- The target of a relative branch, from the address of the branch itself (R120, R121). -/
def State.branchTarget (s : State) (offset : BitVec 13) : Word := s.pc + sext13 offset

/-- Where XFER with P2R writes the return address: RP after its move (`full`) or before it (`empty`) (R175 (c)). -/
def State.returnWriteAddr (s : State) (rs : StackMove) : Word :=
  match s.params.discipline with
  | .full => movedRp s.rp rs
  | .empty => s.rp

/-- Where XFER with R2P reads the return address: RP before its move (`full`) or after it (`empty`) (R175 (c)). -/
def State.returnReadAddr (s : State) (rs : StackMove) : Word :=
  match s.params.discipline with
  | .full => s.rp
  | .empty => movedRp s.rp rs

end Sys2Proof.Machine
end

