-- ==== Sys2Proof/Machine/Flags.lean ====
section
/-! DEFINITION. The machine has no flags (R34): a comparison leaves its outcome as a word. Here are the tests of CMP, CMPU
and CBRANCH. -/

namespace Sys2Proof.Machine

/-- The selected outcome `ci XOR ((ce AND X = Y) OR (cl AND Y < X))`, given the two tests (R88). -/
def selectedTest (sel : Selector) (eq lt : Bool) : Bool := sel.ci ^^ ((sel.ce && eq) || (sel.cl && lt))

/-- `zext_1`: the word 1 or the word 0 (R137, R147). -/
def truthWord (t : Bool) : Word := (BitVec.ofBool t).setWidth 32

/-- CMP's test, "s(Y) < s(X)" signed (R137). -/
def compareSigned (sel : Selector) (x y : Word) : Word := truthWord (selectedTest sel (x == y) (y.slt x))

/-- CMPU's test, "u(Y) < u(X)" unsigned (R143). -/
def compareUnsigned (sel : Selector) (x y : Word) : Word := truthWord (selectedTest sel (x == y) (y.ult x))

/-- CBRANCH's test: with N = 1 X nonzero, with N = 0 X zero, on all 32 bits (R121). -/
def branchTaken (n : Bool) (x : Word) : Bool := if n then x != 0#32 else x == 0#32

end Sys2Proof.Machine
end

