-- ==== Sys2Proof/Machine/Functions.lean ====
section
/-! DEFINITION. The result words of the ALU functions (R131 to R146); all arithmetic is modulo 2^32 (R8, R147). -/

namespace Sys2Proof.Machine

/-- R139: shift right by one, shifting in 0, or the sign bit with XT. -/
def shiftRight (xt : Bool) (x : Word) : Word := if xt then x.sshiftRight 1 else x >>> 1

/-- R140: shift left by one, or by two where bit 1 of the operand is set. -/
def shiftLeft (operand : BitVec 4) (x : Word) : Word := if operand.getLsbD 1 then x <<< 2 else x <<< 1

/-- The shift that moves a word's byte 0 to position Y[1:0], 0 being the most significant byte: `8 * (3 - p)` (R144,
R146). -/
def bytePlace (y : Word) : Nat := 8 * (3 - (y.extractLsb' 0 2).toNat)

/-- R144: the low byte of X at the byte position Y[1:0], the other bytes 0. -/
def placeByte (x y : Word) : Word := (x.extractLsb' 0 8).setWidth 32 <<< bytePlace y

/-- R145: rotate left by 8 bits. -/
def rotateByte (x : Word) : Word := x.extractLsb' 0 24 ++ x.extractLsb' 24 8

/-- R146: the byte of X at the byte position Y[1:0], zero-extended. -/
def selectByte (x y : Word) : Word := ((x >>> bytePlace y).extractLsb' 0 8).setWidth 32

end Sys2Proof.Machine
end

