-- ==== Sys2Proof/Machine/Alu.lean ====
section
/-! DEFINITION. The sixteen ALU instructions (41_alu.md). -/

namespace Sys2Proof.Machine

/-- The common execution of every ALU instruction (R130): the result of the old X and Y, the stack update, PC + 2. The
stack faults are those of R28 (c), (d); an absent operand is a free value (log entry 2). -/
def runAlu (f : Word → Word → Word) (m : StackMove) (x2y : Bool) (s : State) : Result :=
  match s.moveFault m with
  | some e => .fault e
  | none => .next (s.upd (f s.x s.y) m x2y).advance

/-- R131: "nX = X + Y". -/
def execAdd (m : StackMove) (x2y : Bool) (s : State) : Result := runAlu (fun x y => x + y) m x2y s

/-- R132: "nX = Y - X" (C4). -/
def execSub (m : StackMove) (x2y : Bool) (s : State) : Result := runAlu (fun x y => y - x) m x2y s

/-- R133: "nX = ~X". -/
def execNot (m : StackMove) (x2y : Bool) (s : State) : Result := runAlu (fun x _ => ~~~x) m x2y s

/-- R134: "nX = X & Y". -/
def execAnd (m : StackMove) (x2y : Bool) (s : State) : Result := runAlu (fun x y => x &&& y) m x2y s

/-- R135: "nX = X | Y". -/
def execOr (m : StackMove) (x2y : Bool) (s : State) : Result := runAlu (fun x y => x ||| y) m x2y s

/-- R136: "nX = X ^ Y". -/
def execXor (m : StackMove) (x2y : Bool) (s : State) : Result := runAlu (fun x y => x ^^^ y) m x2y s

/-- R137: signed comparison by the selector. -/
def execCmp (m : StackMove) (x2y : Bool) (sel : Selector) (s : State) : Result :=
  runAlu (compareSigned sel) m x2y s

/-- R138: "nX = Y". -/
def execY (m : StackMove) (x2y : Bool) (s : State) : Result := runAlu (fun _ y => y) m x2y s

/-- R139: shift right by one bit, arithmetic with XT. -/
def execShr (m : StackMove) (x2y xt : Bool) (s : State) : Result := runAlu (fun x _ => shiftRight xt x) m x2y s

/-- R140: shift left by one or two bits. -/
def execShl (m : StackMove) (x2y : Bool) (operand : BitVec 4) (s : State) : Result :=
  runAlu (fun x _ => shiftLeft operand x) m x2y s

/-- R141: "nX = X + operand". -/
def execInc (m : StackMove) (x2y : Bool) (operand : BitVec 4) (s : State) : Result :=
  runAlu (fun x _ => x + zext4 operand) m x2y s

/-- R142: "nX = X - operand". -/
def execDec (m : StackMove) (x2y : Bool) (operand : BitVec 4) (s : State) : Result :=
  runAlu (fun x _ => x - zext4 operand) m x2y s

/-- R143: unsigned comparison by the selector. -/
def execCmpu (m : StackMove) (x2y : Bool) (sel : Selector) (s : State) : Result :=
  runAlu (compareUnsigned sel) m x2y s

/-- R144: byte place. -/
def execBplc (m : StackMove) (x2y : Bool) (s : State) : Result := runAlu placeByte m x2y s

/-- R145: byte rotate. -/
def execBrot (m : StackMove) (x2y : Bool) (s : State) : Result := runAlu (fun x _ => rotateByte x) m x2y s

/-- R146: byte select. -/
def execBsel (m : StackMove) (x2y : Bool) (s : State) : Result := runAlu selectByte m x2y s

end Sys2Proof.Machine
end

