-- ==== Sys2Proof/Machine/Branch.lean ====
section
/-! DEFINITION. BRANCH and CBRANCH (40_branch.md). -/

namespace Sys2Proof.Machine

/-- R120: "Adds a signed 13-bit constant to the program counter." An odd target is `OddPC`. -/
def execBranch (offset : BitVec 13) (s : State) : Result := s.transfer (s.branchTarget offset)

/-- R121: the branch is taken on the old X, which is removed in both cases; the offset is from the CBRANCH itself (D8). -/
def execCbranch (offset : BitVec 13) (n : Bool) (s : State) : Result :=
  match s.moveFault .sm1 with
  | some e => .fault e
  | none => .next (s.pop.setPc (if branchTaken n s.x then s.branchTarget offset else s.nextPc))

end Sys2Proof.Machine
end

