-- ==== Sys2Proof/Machine/LoadStore.lean ====
section
/-! DEFINITION. Loads, stores and constants (44_load_store.md). -/

namespace Sys2Proof.Machine

/-- Load the word at `addr` and push it; the stack is checked before the access (R217). -/
def loadAndPush (addr : Word) (s : State) : Result :=
  match s.moveFault .s1 with
  | some e => .fault e
  | none =>
    match s.memRead addr with
    | .error e => .fault e
    | .ok v => .next (s.push v).advance

/-- R190: store X at FP or BP plus the offset, and remove it (D10). -/
def execStore (offset : BitVec 13) (b : Base) (s : State) : Result :=
  match s.moveFault .sm1 with
  | some e => .fault e
  | none =>
    match s.memWrite (s.localAddr offset b) s.x with
    | .error e => .fault e
    | .ok t => .next t.pop.advance

/-- R191: push the word at FP or BP plus the offset. -/
def execLoad (offset : BitVec 13) (b : Base) (s : State) : Result := loadAndPush (s.localAddr offset b) s

/-- R192: push the sign-extended constant. -/
def execLoadc (constant : BitVec 13) (s : State) : Result := s.pushNext (sext13 constant)

/-- R193: the word at the address X is the result of the stack update. -/
def execLoadi (m : StackMove) (x2y : Bool) (s : State) : Result :=
  match s.moveFault m with
  | some e => .fault e
  | none =>
    match s.memRead s.x with
    | .error e => .fault e
    | .ok v => .next (s.upd v m x2y).advance

/-- R194: store X at the address Y; Y plus the increment is the result of the stack update. -/
def execStorei (m : StackMove) (x2y : Bool) (increment : BitVec 4) (s : State) : Result :=
  match s.moveFault m with
  | some e => .fault e
  | none =>
    match s.memWrite s.y s.x with
    | .error e => .fault e
    | .ok t => .next (t.upd (s.y + zext4 increment) m x2y).advance

/-- R195: push the word at PC plus the offset, PC being the address of the LOADREL (D8). -/
def execLoadrel (offset : BitVec 10) (s : State) : Result := loadAndPush (s.relAddr offset) s

/-- R196: LOADCP, "Pseudocode: that of LOADREL". -/
def execLoadcp (offset : BitVec 10) (s : State) : Result := loadAndPush (s.relAddr offset) s

end Sys2Proof.Machine
end

