-- ==== Sys2Proof/Machine/Registers.lean ====
section
/-! DEFINITION. LOADREG, STOREREG and FPADJ (45_registers.md). -/

namespace Sys2Proof.Machine

/-- R205: push a register. -/
def execLoadreg (r : Reg) (s : State) : Result := s.pushNext (s.readReg r)

/-- R206: set a register to X, which is removed. -/
def execStorereg (r : Reg) (s : State) : Result :=
  match s.moveFault .sm1 with
  | some e => .fault e
  | none => .next (s.writeReg r s.x).pop.advance

/-- R207: add the signed constant to FP, modulo 2^32. -/
def execFpadj (constant : BitVec 10) (s : State) : Result := .next (s.setFp (s.fp + sext10 constant)).advance

end Sys2Proof.Machine
end

