-- ==== Sys2Proof/Machine/Reserved.lean ====
section
/-! DEFINITION. The reserved EXT classes: "words [that] have no meaning in the source; the model raises `ReservedEncoding`
for each" (R98 (a), R218). -/

namespace Sys2Proof.Machine

/-- The stop of a reserved encoding, with "the word, PC" (R218). -/
def reservedWord (w : Ins) (s : State) : Result := .fault (.reservedEncoding w s.pc)

/-- R98 (a), EXT code 010. -/
def execReservedExt010 (rest : BitVec 10) (s : State) : Result := reservedWord (encode (.reservedExt010 rest)) s

/-- R98 (a), EXT code 100. -/
def execReservedExt100 (rest : BitVec 10) (s : State) : Result := reservedWord (encode (.reservedExt100 rest)) s

/-- R98 (a), EXT code 110. -/
def execReservedExt110 (rest : BitVec 10) (s : State) : Result := reservedWord (encode (.reservedExt110 rest)) s

/-- R98 (a), EXT code 111. -/
def execReservedExt111 (rest : BitVec 10) (s : State) : Result := reservedWord (encode (.reservedExt111 rest)) s

end Sys2Proof.Machine
end

