-- ==== Sys2Proof/Machine/StackAliases.lean ====
section
/-! DEFINITION. DROP, SWAP, OVER (settings of Y) and DUP, NIP (settings of INC) (42_stack_aliases.md). -/

namespace Sys2Proof.Machine

/-- R165: DROP, `upd(Y, -1, 0)`. -/
def execDrop (s : State) : Result := runAlu (fun _ y => y) .sm1 false s

/-- R166: SWAP, `upd(Y, 0, 1)`. -/
def execSwap (s : State) : Result := runAlu (fun _ y => y) .s0 true s

/-- R167: OVER, `upd(Y, +1, 1)`. -/
def execOver (s : State) : Result := runAlu (fun _ y => y) .s1 true s

/-- R168: DUP, `upd(X + 0, +1, 1)` (C3). -/
def execDup (s : State) : Result := runAlu (fun x _ => x + zext4 0#4) .s1 true s

/-- R169: NIP, `upd(X + 0, -1, 0)`. -/
def execNip (s : State) : Result := runAlu (fun x _ => x + zext4 0#4) .sm1 false s

end Sys2Proof.Machine
end

