-- ==== Sys2Proof/Machine/Xfer.lean ====
section
/-! DEFINITION. XFER and its settings JUMP, CALL, RET (43_xfer.md). -/

namespace Sys2Proof.Machine

/-- The value R2P gives the target: the word read from the return stack, else the next instruction's address (R175). -/
def State.returnTarget (s : State) (rs : StackMove) (r2p : Bool) : Except Fault Word :=
  if r2p then s.memRead (s.returnReadAddr rs) else .ok s.nextPc

/-- The write of P2R: "the address of the next instruction" to the return stack (R175 (b), C15). -/
def State.saveReturn (s : State) (rs : StackMove) (p2r : Bool) : Except Fault State :=
  if p2r then s.memWrite (s.returnWriteAddr rs) s.nextPc else .ok s

/-- XFER's effect on the evaluation stack: S = -1 pops. An X that X2P read although it is absent used a free value. -/
def State.xferStack (s : State) (m : StackMove) (x2p : Bool) : State :=
  let t := if m = .sm1 then s.pop else s
  if x2p && s.estack.isEmpty then t.tick else t

/-- The pseudocode of R175, under both disciplines, in the order of R217: the reserved field combinations, the stack, the
return-stack read and write, the target. -/
def runXfer (rs : StackMove) (r2p p2r : Bool) (m : StackMove) (x2p : Bool) (s : State) : Result :=
  if m = .s1 || (r2p && x2p) then .fault (.reservedEncoding (encode (.xfer rs r2p p2r m x2p)) s.pc)
  else
    match s.moveFault m with
    | some e => .fault e
    | none =>
      match s.returnTarget rs r2p with
      | .error e => .fault e
      | .ok target =>
        match s.saveReturn rs p2r with
        | .error e => .fault e
        | .ok t => ((t.setRp (movedRp s.rp rs)).xferStack m x2p).transfer (if x2p then s.x else target)

/-- R175: XFER with its fields read one by one (D24). -/
def execXfer (rs : StackMove) (r2p p2r : Bool) (m : StackMove) (x2p : Bool) (s : State) : Result :=
  runXfer rs r2p p2r m x2p s

/-- R176: JUMP = `XFER.SM1.X2P` (C5). -/
def execJump (s : State) : Result := runXfer .s0 false false .sm1 true s

/-- R177: CALL = `XFER.RS1.SM1.P2R.X2P` (C6). -/
def execCall (s : State) : Result := runXfer .s1 false true .sm1 true s

/-- R178: RET = `XFER.RSM1.R2P`. -/
def execRet (s : State) : Result := runXfer .sm1 true false .s0 false s

end Sys2Proof.Machine
end

