-- ==== Sys2Proof/Machine/Dispatch.lean ====
section
/-! DEFINITION. The meaning of every instruction, one arm per constructor, in the order of spec/opcode_table.json. -/

namespace Sys2Proof.Machine

def exec (i : Instr) (s : State) : Host.Outcome State Fault Refusal :=
  match i with
  | .branch offset => Sys2Proof.Machine.execBranch offset s
  | .add m x2y => Sys2Proof.Machine.execAdd m x2y s
  | .sub m x2y => Sys2Proof.Machine.execSub m x2y s
  | .not m x2y => Sys2Proof.Machine.execNot m x2y s
  | .and m x2y => Sys2Proof.Machine.execAnd m x2y s
  | .or m x2y => Sys2Proof.Machine.execOr m x2y s
  | .xor m x2y => Sys2Proof.Machine.execXor m x2y s
  | .cmp m x2y sel => Sys2Proof.Machine.execCmp m x2y sel s
  | .y m x2y => Sys2Proof.Machine.execY m x2y s
  | .shr m x2y xt => Sys2Proof.Machine.execShr m x2y xt s
  | .shl m x2y operand => Sys2Proof.Machine.execShl m x2y operand s
  | .inc m x2y operand => Sys2Proof.Machine.execInc m x2y operand s
  | .dec m x2y operand => Sys2Proof.Machine.execDec m x2y operand s
  | .cmpu m x2y sel => Sys2Proof.Machine.execCmpu m x2y sel s
  | .bplc m x2y => Sys2Proof.Machine.execBplc m x2y s
  | .brot m x2y => Sys2Proof.Machine.execBrot m x2y s
  | .bsel m x2y => Sys2Proof.Machine.execBsel m x2y s
  | .store offset base => Sys2Proof.Machine.execStore offset base s
  | .xfer rs r2p p2r m x2p => Sys2Proof.Machine.execXfer rs r2p p2r m x2p s
  | .load offset base => Sys2Proof.Machine.execLoad offset base s
  | .cbranch offset n => Sys2Proof.Machine.execCbranch offset n s
  | .loadc constant => Sys2Proof.Machine.execLoadc constant s
  | .loadreg reg => Sys2Proof.Machine.execLoadreg reg s
  | .storereg reg => Sys2Proof.Machine.execStorereg reg s
  | .loadi m x2y => Sys2Proof.Machine.execLoadi m x2y s
  | .storei m x2y increment => Sys2Proof.Machine.execStorei m x2y increment s
  | .fpadj constant => Sys2Proof.Machine.execFpadj constant s
  | .loadrel offset => Sys2Proof.Machine.execLoadrel offset s
  | .reservedExt010 rest => Sys2Proof.Machine.execReservedExt010 rest s
  | .reservedExt100 rest => Sys2Proof.Machine.execReservedExt100 rest s
  | .reservedExt110 rest => Sys2Proof.Machine.execReservedExt110 rest s
  | .reservedExt111 rest => Sys2Proof.Machine.execReservedExt111 rest s
  | .drop => Sys2Proof.Machine.execDrop s
  | .swap => Sys2Proof.Machine.execSwap s
  | .over => Sys2Proof.Machine.execOver s
  | .dup => Sys2Proof.Machine.execDup s
  | .nip => Sys2Proof.Machine.execNip s
  | .jump => Sys2Proof.Machine.execJump s
  | .call => Sys2Proof.Machine.execCall s
  | .ret => Sys2Proof.Machine.execRet s
  | .loadcp offset => Sys2Proof.Machine.execLoadcp offset s

end Sys2Proof.Machine
end

