-- ==== Sys2Proof/Machine/Load.lean ====
section
/-! DEFINITION. The host's load of one instruction before a run (R66: "Loading the program into `MEM` before reset is not a
store of the program"; R241). -/

namespace Sys2Proof.Machine

/-- Put a 16-bit instruction where the fetch at `pc` finds it: the byte at the lower address is its upper half (R53). -/
def Memory.writeIns (m : Memory) (a : Nat) (w : Ins) : Memory :=
  (m.writeByte a (w.extractLsb' 8 8)).writeByte (a + 1) (w.extractLsb' 0 8)

/-- The address map with the word address `a` in it. -/
def withMapped (p : Config.Params) (a : Word) : Config.Params :=
  if mapped p a then p else { p with map := p.map ++ [⟨a.toNat, 4⟩] }

/-- Place an instruction word at PC: its two bytes are stored, and what would keep the fetch from it is set right: a word
the map lacks is mapped, a word the program has stored to counts as loaded, bit 0 of an odd PC is cleared. -/
def State.placeIns (s : State) (w : Ins) : State :=
  let pc := s.pc &&& 0xFFFFFFFE#32
  let a := wordAddr pc
  { s with
    pc := pc
    mem := s.mem.writeIns pc.toNat w
    params := withMapped s.params a
    written := s.written.filter (· != a.toNat) }

end Sys2Proof.Machine
end

