-- ==== Sys2Proof/Machine/Step.lean ====
section
/-! DEFINITION. One step: fetch, decode, execute (R53, R107), in the fault order of R217. -/

namespace Sys2Proof.Machine

/-- One instruction: the fetched word's instruction is executed, a reserved word is `ReservedEncoding` (R98, R218). A
`BRANCH 0` is executed like any other: it leaves the state as it is (R240; log entry 21). -/
def step (s : State) : Host.Outcome State Fault Refusal :=
  match s.fetch with
  | .error f => .fault f
  | .ok w =>
    match decode w with
    | .error _ => .fault (.reservedEncoding w s.pc)
    | .ok i => exec i s

/-- `s` with the instruction whose bits are the low `nbits` of `w` placed where `step` fetches next (log entry 5). -/
def State.withFetchWord (s : State) (nbits w : Nat) : State := s.placeIns (BitVec.ofNat 16 (w % 2 ^ nbits))

end Sys2Proof.Machine
end

