-- ==== Sys2Proof/Safety.lean ====
section
/-! DEFINITION. What counts as a good state and a safe step, in the terms the claims use. -/

namespace Sys2Proof.Machine

/-- What holds of every state a run from a good start reaches: the memory and the set of words stored to are in their
forms, every word stored to exists (R60), the depth is at most `ESTACK_DEPTH`, which is at least 32 (R25, R26), and PC is
even (R33). -/
structure State.Good (s : State) : Prop where
  mem : s.mem.wf = true
  written : writtenWf 0 s.written = true
  storedMapped : ∀ a : Word, a.toNat ∈ s.written → mapped s.params a = true
  depth : s.estack.length ≤ s.params.estackDepth
  limit : 32 ≤ s.params.estackDepth
  evenPc : s.pc.getLsbD 0 = false

/-- The step answers a next state: no model fault of R218. -/
def State.Steps (s : State) : Prop := ∃ t, step s = .next t

/-- The run is final: the instruction at PC is `BRANCH 0`, word 0x0000 (R240). -/
def State.Final (s : State) : Prop := s.fetch = .ok 0#16

end Sys2Proof.Machine
end

