-- ==== Sys2Proof/Certificates/Slice0/Obligations.lean ====
section
/-! DEFINITION. The statements for the provers, with the few terms they are written in. They speak of the machine in the
spec's own terms (rows of R27's table, numbers modulo 2^32, bytes at addresses), not in the terms of its definitions. -/

namespace Sys2Proof.Claims

open Sys2Proof.Machine

/-! ## Terms -/

/-- A stack movement leaves room: S = +1 finds the depth below `ESTACK_DEPTH` (R28 (d)). -/
def HasRoom (s : State) (m : StackMove) : Prop := m = .s1 → s.estack.length < s.params.estackDepth

/-- S = -1 finds an element to remove (R28 (c)). -/
def HasElement (s : State) (m : StackMove) : Prop := m = .sm1 → s.estack ≠ []

/-- The row of R27's table for `upd(r, m, x2y)` on the stack `x :: y :: rest`, the new stack being `e`. The undefined
cell of the row S = +1, X2Y = 0 may hold any word `u`. -/
def UpdRow (r : Word) (m : StackMove) (x2y : Bool) (x y : Word) (rest e : List Word) : Prop :=
  match m, x2y with
  | .s0, false => e = r :: y :: rest
  | .s0, true => e = r :: x :: rest
  | .sm1, false => e = r :: rest
  | .sm1, true => (rest = [] ∧ e = [r]) ∨ ∃ e2 below, rest = e2 :: below ∧ e = r :: x :: below
  | .s1, true => e = r :: x :: y :: rest
  | .s1, false => ∃ u, e = r :: u :: y :: rest

/-- The same on a stack of one element `x`: the row is cut to the new depth. -/
def UpdRowOne (r : Word) (m : StackMove) (x2y : Bool) (x : Word) (e : List Word) : Prop :=
  match m, x2y with
  | .s0, _ => e = [r]
  | .sm1, _ => e = []
  | .s1, true => e = [r, x]
  | .s1, false => ∃ u, e = [r, u]

/-- The instruction completes, and changes only the evaluation stack, to `e`, and PC, to PC + 2 (and the model's count of
free values). -/
def EndsWithStack (i : Instr) (s : State) (e : List Word) : Prop :=
  exec i s = .next { s with estack := e, pc := s.pc + 2#32, freeCount := s.freeCount + 3 }

/-- The instruction completes with `upd(r, m, x2y)` of R27 as its whole effect, but for PC + 2. -/
def EndsWithUpd (i : Instr) (s : State) (r : Word) (m : StackMove) (x2y : Bool) (x y : Word) (rest : List Word) : Prop :=
  ∃ e, UpdRow r m x2y x y rest e ∧ EndsWithStack i s e

/-- CMP with the selector `ci ce cl` completes on the stack `x :: y :: rest`, its result the word 1 where `t` holds and the
word 0 where it does not (R137). -/
def CmpGives (s : State) (m : StackMove) (x2y : Bool) (x y : Word) (rest : List Word) (ci ce cl : Bool) (t : Prop) : Prop :=
  ∃ r : Word, EndsWithUpd (.cmp m x2y ⟨ci, ce, cl⟩) s r m x2y x y rest ∧ (t → r = 1#32) ∧ (¬ t → r = 0#32)

/-- The same of CMPU (R143). -/
def CmpuGives (s : State) (m : StackMove) (x2y : Bool) (x y : Word) (rest : List Word) (ci ce cl : Bool) (t : Prop) :
    Prop :=
  ∃ r : Word, EndsWithUpd (.cmpu m x2y ⟨ci, ce, cl⟩) s r m x2y x y rest ∧ (t → r = 1#32) ∧ (¬ t → r = 0#32)

/-- The ALU instructions with their modifiers: the sixteen functions of R83. -/
def aluInstrs (m : StackMove) (x2y xt : Bool) (sel : Selector) (k : BitVec 4) : List Instr :=
  [.add m x2y, .sub m x2y, .not m x2y, .and m x2y, .or m x2y, .xor m x2y, .cmp m x2y sel, .y m x2y, .shr m x2y xt,
    .shl m x2y k, .inc m x2y k, .dec m x2y k, .cmpu m x2y sel, .bplc m x2y, .brot m x2y, .bsel m x2y]

/-- The word at the word address `a` exists and is `w`, its most significant byte at `a` (R52). -/
def WordAt (s : State) (a w : Word) : Prop :=
  s.byteAt a = some (w.extractLsb' 24 8) ∧ s.byteAt (a + 1#32) = some (w.extractLsb' 16 8) ∧
    s.byteAt (a + 2#32) = some (w.extractLsb' 8 8) ∧ s.byteAt (a + 3#32) = some (w.extractLsb' 0 8)

/-- The word address of `a`: its two low bits cleared (R54). -/
def aligned (a : Word) : Word := BitVec.ofNat 32 (a.toNat / 4 * 4)

/-- The word at the word address `a` exists (R60). -/
def Exists (s : State) (a : Word) : Prop := ∃ b, s.byteAt a = some b

/-- Nothing but PC, the evaluation stack, memory and the words stored to (and the model's own count) differs. -/
def SameRegisters (s t : State) : Prop := t.fp = s.fp ∧ t.bp = s.bp ∧ t.rp = s.rp ∧ t.params = s.params

/-- Memory is as before, and nothing more counts as stored to. -/
def SameMemory (s t : State) : Prop := (∀ a, t.byteAt a = s.byteAt a) ∧ t.written = s.written

/-- From `s` to `t` exactly the word at the word address `a` was written, with `v`. -/
def StoredWord (s t : State) (a v : Word) : Prop :=
  WordAt t a v ∧ (∀ b, aligned b ≠ a → t.byteAt b = s.byteAt b) ∧ ∀ k, k ∈ t.written ↔ k = a.toNat ∨ k ∈ s.written

/-- A number as a word: modulo 2^32 (R8, R62). -/
def word (n : Int) : Word := BitVec.ofInt 32 n

/-- A movement as a number (R84). -/
def moveNumber : StackMove → Int
  | .s0 => 0
  | .s1 => 1
  | .sm1 => -1

/-- The value of FP or BP, the base of LOAD and STORE (R89). -/
def baseOf (s : State) : Base → Word
  | .fp => s.fp
  | .bp => s.bp

/-- The effective address of LOAD and STORE (R190, R191). -/
def localEa (s : State) (offset : BitVec 13) (b : Base) : Word := word ((baseOf s b).toNat + offset.toNat)

/-- RP after the movement RS: "RS = +1 moves RP down by one word, RS = −1 up" (R175). -/
def newRp (s : State) (rs : StackMove) : Word := word (s.rp.toNat - 4 * moveNumber rs)

/-- Where XFER with P2R writes (R175 (c)). -/
def pushAddr (s : State) (rs : StackMove) : Word :=
  match s.params.discipline with
  | .full => newRp s rs
  | .empty => s.rp

/-- Where XFER with R2P reads (R175 (c)). -/
def popAddr (s : State) (rs : StackMove) : Word :=
  match s.params.discipline with
  | .full => s.rp
  | .empty => newRp s rs

/-- The address an instruction stores to, if it stores (R57): FP or BP plus offset; Y; the return stack with P2R. -/
def storeAddr (i : Instr) (s : State) : Option Word :=
  match i with
  | .store offset b => some (localEa s offset b)
  | .storei _ _ _ => some s.y
  | .xfer rs _ true _ _ => some (pushAddr s rs)
  | .call => some (pushAddr s .s1)
  | _ => none

/-- The change of depth of an instruction: S, a push, or a pop (R27, R84). -/
def depthChange : Instr → Int
  | .add m _ | .sub m _ | .not m _ | .and m _ | .or m _ | .xor m _ | .cmp m _ _ | .y m _ | .shr m _ _ | .shl m _ _
  | .inc m _ _ | .dec m _ _ | .cmpu m _ _ | .bplc m _ | .brot m _ | .bsel m _ | .loadi m _ | .storei m _ _
  | .xfer _ _ _ m _ => moveNumber m
  | .load _ _ | .loadc _ | .loadreg _ | .loadrel _ | .loadcp _ | .dup | .over => 1
  | .store _ _ | .cbranch _ _ | .storereg _ | .drop | .nip | .jump | .call => -1
  | .branch _ | .fpadj _ | .swap | .ret | .reservedExt010 _ | .reservedExt100 _ | .reservedExt110 _
  | .reservedExt111 _ => 0

/-- The two bits of a movement: 00 is 0, 01 is +1, 11 is −1 (R84, R90). -/
def moveBits : StackMove → BitVec 2
  | .s0 => 0b00#2
  | .s1 => 0b01#2
  | .sm1 => 0b11#2

/-- Bits `lo + len - 1` to `lo` of a word, as a number (R7). -/
def bitsOf (w : Ins) (lo len : Nat) : Nat := w.toNat / 2 ^ lo % 2 ^ len

/-- The reserved words, R98 (a) to (e), in the bits of the word. -/
def ReservedWord (w : Ins) : Prop :=
  (bitsOf w 13 3 = 7 ∧ (bitsOf w 10 3 = 2 ∨ bitsOf w 10 3 = 4 ∨ bitsOf w 10 3 = 6 ∨ bitsOf w 10 3 = 7)) ∨
    ((bitsOf w 13 3 = 1 ∨ (bitsOf w 13 3 = 7 ∧ bitsOf w 10 3 = 1)) ∧ bitsOf w 4 2 = 2) ∨
    (bitsOf w 13 3 = 3 ∧ (bitsOf w 4 2 = 2 ∨ bitsOf w 4 2 = 1 ∨ bitsOf w 8 2 = 2)) ∨
    (bitsOf w 13 3 = 3 ∧ bitsOf w 7 1 = 1 ∧ bitsOf w 0 1 = 1) ∨
    (bitsOf w 13 3 = 7 ∧ bitsOf w 10 3 = 0 ∧ 2 < bitsOf w 0 4) ∨
    (bitsOf w 13 3 = 1 ∧ (bitsOf w 9 4 = 6 ∨ bitsOf w 9 4 = 12) ∧ bitsOf w 3 1 = 1)

end Sys2Proof.Claims

open Sys2Proof Sys2Proof.Machine Sys2Proof.Claims

/-! ## Encoding -/

/-- A few words written out from the formats of R81 to R96 decode to the instruction they stand for. That 0x6171, which R107
makes XFER, is spelled by its alias CALL is the model's choice (log entry 6). -/
def Obligations.HandEncodedWordsDecode : Prop :=
  decode 0b0001111111111100#16 = .ok (.branch 0b1111111111100#13) ∧
    decode 0b0010000000110000#16 = .ok (.add .sm1 false) ∧
    decode 0b0010110001010010#16 = .ok (.cmp .s1 true ⟨false, true, false⟩) ∧
    decode 0b0100000000000101#16 = .ok (.store 4#13 .bp) ∧
    decode 0b0110000101000000#16 = .ok (.xfer .s1 false true .s0 false) ∧
    decode 0b0110000101110001#16 = .ok .call ∧
    decode 0b1100111111111111#16 = .ok (.loadc 4095#13) ∧
    decode 0b1110001000000010#16 = .ok (.storereg .rp) ∧
    decode 0b1110011001010100#16 = .ok (.storei .s1 true 4#4) ∧
    decode 0b1111010000001000#16 = .ok (.loadrel 8#10)

/-- For every encodable instruction under the name the decoder gives it, decoding its word gives it back: every operand
at every value the encoding admits, an odd BRANCH offset included. That a setting R104 names is decoded under its alias
is the model's choice (log entry 6). -/
def Obligations.DecodeInvertsEncode : Prop :=
  ∀ i : Instr, i.encodable = true → i.canonical = true → decode (encode i) = .ok i

/-- An alias, and LOADCP, has the word and the meaning of the machine instruction R104 and R196 make it stand for; and
the alias the decoder names a setting by means what the setting means (log entry 6). -/
def Obligations.AliasesRunAsTheirMachineInstruction : Prop :=
  (∀ i : Instr, encode i = encode i.machine ∧ ∀ s, exec i s = exec i.machine s) ∧
    (∀ i : Instr, i.named.machine = i.machine) ∧
    ∀ offset : BitVec 10, Instr.machine .drop = .y .sm1 false ∧ Instr.machine .swap = .y .s0 true ∧
      Instr.machine .over = .y .s1 true ∧ Instr.machine .dup = .inc .s1 true 0#4 ∧
      Instr.machine .nip = .inc .sm1 false 0#4 ∧ Instr.machine .jump = .xfer .s0 false false .sm1 true ∧
      Instr.machine .call = .xfer .s1 false true .sm1 true ∧ Instr.machine .ret = .xfer .sm1 true false .s0 false ∧
      Instr.machine (.loadcp offset) = .loadrel offset

/-- The words with no meaning are exactly those of R98 (a) to (e): a step that fetches the word `w` stops with
`ReservedEncoding`, naming `w` and PC, exactly where `w` is one of them. -/
def Obligations.ReservedWordsAreExactlyR98 : Prop :=
  ∀ (s : State) (w : Ins), s.fetch = .ok w →
    (step s = .fault (.reservedEncoding w s.pc) ↔ ReservedWord w)

/-- Unused bits take no part in decoding: a word that decodes is the canonical word of its instruction but for the
unused bits of its row, and every word that differs from it only there decodes alike. -/
def Obligations.UnusedBitsAreIgnored : Prop :=
  ∀ (w : Ins) (i : Instr), decode w = .ok i →
    encode i = w &&& ~~~i.unusedBits ∧ ∀ v : Ins, v &&& ~~~i.unusedBits = w &&& ~~~i.unusedBits → decode v = .ok i

/-- R81, format B: `000 off13`, the offset the signed 13-bit number of bits 12 to 0, −4096 to +4095; a well-formed BRANCH
has an even one, −4096 to +4094. -/
def Obligations.BranchFormat : Prop :=
  ∀ off : BitVec 13,
    decode (0b000#3 ++ off) = .ok (.branch off) ∧ encode (.branch off) = 0b000#3 ++ off ∧
      (sext13 off).toInt = off.toInt ∧ -4096 ≤ off.toInt ∧ off.toInt ≤ 4095 ∧
      ((Instr.branch off).wellFormed = true ↔ off.getLsbD 0 = false) ∧
      ((Instr.branch off).wellFormed = true → off.toInt ≤ 4094)

/-- R89, format M: STORE `010`, LOAD `100`; bits 12 to 1 are those of the offset, bit 0 is B (BP if set, else FP); the
offset is even, 0 to 8190, and every even one can be encoded. R91, format CB: `101 off[12:1] N`; the offset is the signed
13-bit number with bit 0 clear, even, −4096 to +4094. -/
def Obligations.EvenOffsetFormats : Prop :=
  ∀ (off : BitVec 12) (b : Bool),
    (decode (0b010#3 ++ off ++ BitVec.ofBool b) = .ok (.store (off ++ 0#1) (if b then .bp else .fp)) ∧
      decode (0b100#3 ++ off ++ BitVec.ofBool b) = .ok (.load (off ++ 0#1) (if b then .bp else .fp)) ∧
      encode (.store (off ++ 0#1) (if b then .bp else .fp)) = 0b010#3 ++ off ++ BitVec.ofBool b ∧
      encode (.load (off ++ 0#1) (if b then .bp else .fp)) = 0b100#3 ++ off ++ BitVec.ofBool b ∧
      (zext13 (off ++ 0#1)).toNat = 2 * off.toNat ∧ 2 * off.toNat ≤ 8190) ∧
    decode (0b101#3 ++ off ++ BitVec.ofBool b) = .ok (.cbranch (off ++ 0#1) b) ∧
      encode (.cbranch (off ++ 0#1) b) = 0b101#3 ++ off ++ BitVec.ofBool b ∧
      (sext13 (off ++ 0#1)).toInt = 2 * off.toInt ∧ -4096 ≤ 2 * off.toInt ∧ 2 * off.toInt ≤ 4094

/-- R92, format C: `110 imm13`, the signed 13-bit number of bits 12 to 0, −4096 to +4095. -/
def Obligations.LoadcFormat : Prop :=
  ∀ c : BitVec 13,
    decode (0b110#3 ++ c) = .ok (.loadc c) ∧ encode (.loadc c) = 0b110#3 ++ c ∧
      (sext13 c).toInt = c.toInt ∧ -4096 ≤ c.toInt ∧ c.toInt ≤ 4095

/-- R96, formats EF and EL: FPADJ `111 011` with the signed 10-bit number of bits 9 to 0, −512 to +511; LOADREL `111 101`
with the unsigned one, 0 to 1023, the largest even offset being 1022. -/
def Obligations.TenBitFormats : Prop :=
  ∀ c : BitVec 10,
    decode (0b111011#6 ++ c) = .ok (.fpadj c) ∧ encode (.fpadj c) = 0b111011#6 ++ c ∧
      decode (0b111101#6 ++ c) = .ok (.loadrel c) ∧ encode (.loadrel c) = 0b111101#6 ++ c ∧
      (sext10 c).toInt = c.toInt ∧ -512 ≤ c.toInt ∧ c.toInt ≤ 511 ∧ (zext10 c).toNat = c.toNat ∧ c.toNat ≤ 1023 ∧
      (c.toNat % 2 = 0 → c.toNat ≤ 1022)

/-- R82, R83, format A: `001 aluop u XT X2Y S operand`, the function the one at the number `aluop` of the sixteen; the
selector of CMP and CMPU is operand bits 2, 1, 0, and operand bit 3 set is reserved for those two. The codes of Y and INC
are the spec's corrections (log entry 12); the eight alias settings are spelled by their alias (log entry 6). -/
def Obligations.AluFormat : Prop :=
  ∀ (aluop operand : BitVec 4) (u : BitVec 1) (xt x2y : Bool) (m : StackMove) (sel : Selector) (i : Instr),
    sel = ⟨operand.getLsbD 2, operand.getLsbD 1, operand.getLsbD 0⟩ →
    (aluInstrs m x2y xt sel operand)[aluop.toNat]? = some i →
      let w : Ins := 0b001#3 ++ aluop ++ u ++ BitVec.ofBool xt ++ BitVec.ofBool x2y ++ moveBits m ++ operand
      ((aluop = 6#4 ∨ aluop = 12#4) ∧ operand.getLsbD 3 = true → decode w = .error .reservedSelector) ∧
        (¬ ((aluop = 6#4 ∨ aluop = 12#4) ∧ operand.getLsbD 3 = true) → decode w = .ok i.named)

/-- R90, R98 (b), (c), format X: `011 uuu RS R2P P2R S uuu X2P`; S = +1, and R2P with X2P, are reserved; the three alias
settings are spelled by their alias (log entry 6). R94, format ER: `111 000 W uuuuu reg` with FP = 0, BP = 1, RP = 2 and
the rest reserved (R98 (d)), W telling STOREREG from LOADREG. R95, format EM: `111 001 W uu X2Y S operand`, W telling
STOREI from LOADI. -/
def Obligations.TransferRegisterAndIndirectFormats : Prop :=
  (∀ (u v : BitVec 3) (rs m : StackMove) (r2p p2r x2p : Bool),
    let w : Ins := 0b011#3 ++ u ++ moveBits rs ++ BitVec.ofBool r2p ++ BitVec.ofBool p2r ++ moveBits m ++ v ++
      BitVec.ofBool x2p
    (m ≠ .s1 ∧ (r2p = false ∨ x2p = false) → decode w = .ok (Instr.xfer rs r2p p2r m x2p).named) ∧
      (m = .s1 ∨ (r2p = true ∧ x2p = true) → decode w = .error .reservedTransfer)) ∧
  (∀ (u : BitVec 5) (reg : BitVec 4),
    decode (0b1110000#7 ++ u ++ reg) = (if reg = 0#4 then .ok (.loadreg .fp) else if reg = 1#4 then .ok (.loadreg .bp)
      else if reg = 2#4 then .ok (.loadreg .rp) else .error .reservedRegister) ∧
    decode (0b1110001#7 ++ u ++ reg) = (if reg = 0#4 then .ok (.storereg .fp) else if reg = 1#4 then .ok (.storereg .bp)
      else if reg = 2#4 then .ok (.storereg .rp) else .error .reservedRegister)) ∧
  ∀ (u : BitVec 2) (x2y : Bool) (m : StackMove) (operand : BitVec 4),
    decode (0b1110010#7 ++ u ++ BitVec.ofBool x2y ++ moveBits m ++ operand) = .ok (.loadi m x2y) ∧
      decode (0b1110011#7 ++ u ++ BitVec.ofBool x2y ++ moveBits m ++ operand) = .ok (.storei m x2y operand)

/-! ## The step -/

/-- A step executes the instruction the fetched word decodes to, and does nothing else. -/
def Obligations.StepRunsDecoded : Prop :=
  ∀ (s : State) (w : Ins) (i : Instr), s.fetch = .ok w → decode w = .ok i → step s = exec i s

/-- After the host loads a 16-bit word with `withFetchWord`, in any state, the next fetch reads that word, with no other
register or stack element changed and PC kept where it is even. -/
def Obligations.LoadedWordIsFetchedNext : Prop :=
  ∀ (s : State) (w : Ins), s.mem.wf = true →
    (s.withFetchWord 16 w.toNat).fetch = .ok w ∧ (s.withFetchWord 16 w.toNat).estack = s.estack ∧
      (s.withFetchWord 16 w.toNat).fp = s.fp ∧ (s.withFetchWord 16 w.toNat).bp = s.bp ∧
      (s.withFetchWord 16 w.toNat).rp = s.rp ∧
      (s.pc.getLsbD 0 = false → (s.withFetchWord 16 w.toNat).pc = s.pc)

/-- The instruction at a byte address with bit 1 clear is the upper half of its word, with bit 1 set the lower half
(R53), where the fetch raises nothing. That the upper half comes first is the spec's decision D6 (log entry 14). -/
def Obligations.FetchTakesHalf : Prop :=
  ∀ (s : State) (a w : Word), a.toNat % 4 = 0 → WordAt s a w → (s.params.ifetchCoherent = true ∨ a.toNat ∉ s.written) →
    (s.pc = a → s.fetch = .ok (w.extractLsb' 16 16)) ∧ (s.pc = a + 2#32 → s.fetch = .ok (w.extractLsb' 0 16))

/-- The stops of a fetch, in the order of R217: a word that does not exist; then a word stored to, unless
`IFETCH_COHERENT` is set (R60, R66; the spec's decisions D15, D19, D21). A PC that is odd already stops first, which is
the model's choice (log entry 9). -/
def Obligations.FetchStops : Prop :=
  ∀ s : State,
    (s.pc.getLsbD 0 = true → step s = .fault (.oddPC s.pc)) ∧
      (s.pc.getLsbD 0 = false → ¬ Exists s (aligned s.pc) →
        step s = .fault (.unmappedAccess .fetch (aligned s.pc))) ∧
      (s.pc.getLsbD 0 = false → Exists s (aligned s.pc) → s.params.ifetchCoherent = false →
        (aligned s.pc).toNat ∈ s.written → step s = .fault (.fetchFromWrittenWord (aligned s.pc)))

/-- R66: after a store to a word, a fetch from that word faults with `IFETCH_COHERENT` unset and gives the stored bits
with it set (the spec's decision D19; log entry 11). -/
def Obligations.FetchAfterStore : Prop :=
  ∀ (s t : State) (a v : Word), s.mem.wf = true → s.memWrite a v = .ok t → t.pc.getLsbD 0 = false →
    aligned t.pc = aligned a →
      (t.params.ifetchCoherent = false → step t = .fault (.fetchFromWrittenWord (aligned a))) ∧
        (t.params.ifetchCoherent = true →
          t.fetch = .ok (if t.pc.getLsbD 1 then v.extractLsb' 0 16 else v.extractLsb' 16 16))

/-- No instruction is refused, in any state; nor is a step. -/
def Obligations.NothingIsRefused : Prop :=
  ∀ (s : State) (r : Refusal), step s ≠ .refused r ∧ ∀ i, exec i s ≠ .refused r

/-- The instruction `BRANCH 0` leaves every piece of state, PC included, unchanged for ever: a final state steps to
itself (R240, the spec's convention D23). -/
def Obligations.BranchZeroStandsStill : Prop :=
  ∀ s : State, s.Final → step s = .next s

/-! ## Reset -/

/-- After reset, for any parameters and any memory image, PC is `RESET_PC`, the evaluation stack is empty, memory is the
image, and nothing counts as stored to (R39, R235; the spec's decision D17). FP, BP and RP hold 0, the model's choice
(log entry 1). `State.reset` is that state for `Config.defaultParams` and an image with nothing listed: R6's defaults for
`RSTACK_DISCIPLINE`, `IFETCH_COHERENT` and `RESET_PC`; its depth 32, its address map and its contents are the model's
choice (log entries 3 and 4). -/
def Obligations.ResetLeaves : Prop :=
  ∀ (p : Config.Params) (image : Memory),
    (State.start p image).pc = p.resetPc ∧ (State.start p image).estack = [] ∧ (State.start p image).mem = image ∧
      (State.start p image).written = [] ∧ (State.start p image).params = p ∧ (State.start p image).fp = 0#32 ∧
      (State.start p image).bp = 0#32 ∧ (State.start p image).rp = 0#32 ∧
      State.reset = State.start Config.defaultParams ⟨[]⟩ ∧ State.reset.pc = 0#32 ∧
      State.reset.params.discipline = .full ∧ State.reset.params.ifetchCoherent = false

/-- The state after reset is good; so is the start with any image in the canonical form, depth at least 32 and an even
`RESET_PC`. -/
def Obligations.ResetIsGood : Prop :=
  State.reset.Good ∧
    ∀ (p : Config.Params) (image : Memory), image.wf = true → 32 ≤ p.estackDepth → p.resetPc.getLsbD 0 = false →
      (State.start p image).Good

/-! ## Invariants and whole-machine rules -/

/-- Every step from a good state leaves a good state: memory stays in its canonical form, only words that exist are
stored to, the depth stays within `ESTACK_DEPTH`, PC stays even. -/
def Obligations.GoodIsKeptByStep : Prop :=
  ∀ s t : State, s.Good → step s = .next t → t.Good

/-- No step changes the parameters of the implementation, and so none changes which words exist. -/
def Obligations.ParametersNeverChange : Prop :=
  ∀ s t : State, step s = .next t → t.params = s.params ∧ ∀ a, Exists t a ↔ Exists s a

/-- The depth changes by the instruction's stack movement: "In every case the new depth is `depth + S`" (R27); a push is
+1, a pop −1. -/
def Obligations.DepthChangesByMovement : Prop :=
  ∀ (i : Instr) (s t : State), exec i s = .next t → (t.estack.length : Int) = s.estack.length + depthChange i

/-- R35: FP is written only by STOREREG FP and FPADJ, BP only by STOREREG BP, RP only by STOREREG RP and XFER with
RS ≠ 0 (CALL and RET among them). -/
def Obligations.RegistersWrittenOnlyBy : Prop :=
  ∀ (i : Instr) (s t : State), exec i s = .next t →
    (t.fp ≠ s.fp → i = .storereg .fp ∨ ∃ c, i = .fpadj c) ∧ (t.bp ≠ s.bp → i = .storereg .bp) ∧
      (t.rp ≠ s.rp → i = .storereg .rp ∨ i = .call ∨ i = .ret ∨
        ∃ rs r2p p2r m x2p, i = .xfer rs r2p p2r m x2p ∧ rs ≠ .s0)

/-- R57: a byte of memory changes only in the word an instruction stores to, at the address the instruction's rule
gives: FP or BP plus offset (STORE), Y (STOREI), the return stack (XFER with P2R, CALL). Every other instruction leaves
all of memory as it was. -/
def Obligations.MemoryWrittenOnlyAtStoreAddress : Prop :=
  ∀ (i : Instr) (s t : State), s.mem.wf = true → exec i s = .next t →
    (∀ a, storeAddr i s = some a → ∀ b, aligned b ≠ aligned a → t.byteAt b = s.byteAt b) ∧
      (storeAddr i s = none → (∀ b, t.byteAt b = s.byteAt b) ∧ t.mem = s.mem ∧ t.written = s.written)

/-- R33: only BRANCH, CBRANCH and XFER (JUMP, CALL, RET) leave the sequence; after every other instruction PC is
PC + 2. -/
def Obligations.OnlyTransfersLeaveTheSequence : Prop :=
  ∀ (i : Instr) (s t : State), exec i s = .next t →
    t.pc = s.pc + 2#32 ∨ i = .jump ∨ i = .call ∨ i = .ret ∨ (∃ off, i = .branch off) ∨ (∃ off n, i = .cbranch off n) ∨
      ∃ rs r2p p2r m x2p, i = .xfer rs r2p p2r m x2p ∧ (r2p = true ∨ x2p = true)

/-- R217: reserved words are reported before stack faults, stack faults before data accesses, data accesses before an odd
target. Stated for XFER, the instruction that can have them all: with the earlier causes absent, the first cause present is
the one reported (the spec's decision D15; log entry 18). -/
def Obligations.XferFaultOrder : Prop :=
  ∀ (s : State) (rs m : StackMove) (r2p p2r x2p : Bool),
    (m = .s1 ∨ (r2p = true ∧ x2p = true) →
      exec (.xfer rs r2p p2r m x2p) s = .fault (.reservedEncoding (encode (.xfer rs r2p p2r m x2p)) s.pc)) ∧
    (m ≠ .s1 → (r2p = true → x2p = false) →
      (m = .sm1 → s.estack = [] → exec (.xfer rs r2p p2r m x2p) s = .fault (.stackUnderflow 0)) ∧
      (HasElement s m →
        (r2p = true → ¬ Exists s (aligned (popAddr s rs)) →
          exec (.xfer rs r2p p2r m x2p) s = .fault (.unmappedAccess .read (aligned (popAddr s rs)))) ∧
        ((r2p = true → Exists s (aligned (popAddr s rs))) → p2r = true → ¬ Exists s (aligned (pushAddr s rs)) →
          exec (.xfer rs r2p p2r m x2p) s = .fault (.unmappedAccess .write (aligned (pushAddr s rs)))) ∧
        ∀ x w target : Word, (x2p = true → ∃ rest, s.estack = x :: rest) →
          (r2p = true → WordAt s (aligned (popAddr s rs)) w) → (p2r = true → Exists s (aligned (pushAddr s rs))) →
          target = (if x2p then x else if r2p then w else s.pc + 2#32) → target.getLsbD 0 = true →
          exec (.xfer rs r2p p2r m x2p) s = .fault (.oddPC target)))

/-! ## The ALU -/

/-- ADD, SUB, INC, DEC on a stack of two or more: X + Y, Y − X, X + operand, X − operand modulo 2^32, with every stack
movement and X2Y, and nothing else changed. The rows of the stack update are the spec's reading D4 (log entry 13); the
undefined cell holds any word (log entry 2). -/
def Obligations.ArithmeticResults : Prop :=
  ∀ (s : State) (x y : Word) (rest : List Word) (m : StackMove) (x2y : Bool) (k : BitVec 4),
    s.estack = x :: y :: rest → HasRoom s m →
      EndsWithUpd (.add m x2y) s (word (x.toNat + y.toNat)) m x2y x y rest ∧
        EndsWithUpd (.sub m x2y) s (word (y.toNat - x.toNat)) m x2y x y rest ∧
        EndsWithUpd (.inc m x2y k) s (word (x.toNat + k.toNat)) m x2y x y rest ∧
        EndsWithUpd (.dec m x2y k) s (word (x.toNat - k.toNat)) m x2y x y rest

/-- NOT, AND, OR, XOR bit by bit, and Y, on a stack of two or more, as for `ArithmeticResults`. -/
def Obligations.BitwiseResults : Prop :=
  ∀ (s : State) (x y : Word) (rest : List Word) (m : StackMove) (x2y : Bool),
    s.estack = x :: y :: rest → HasRoom s m →
      (∃ r : Word, (∀ k < 32, r.getLsbD k = !x.getLsbD k) ∧ EndsWithUpd (.not m x2y) s r m x2y x y rest) ∧
        (∃ r : Word, (∀ k < 32, r.getLsbD k = (x.getLsbD k && y.getLsbD k)) ∧
          EndsWithUpd (.and m x2y) s r m x2y x y rest) ∧
        (∃ r : Word, (∀ k < 32, r.getLsbD k = (x.getLsbD k || y.getLsbD k)) ∧
          EndsWithUpd (.or m x2y) s r m x2y x y rest) ∧
        (∃ r : Word, (∀ k < 32, r.getLsbD k = (x.getLsbD k ^^ y.getLsbD k)) ∧
          EndsWithUpd (.xor m x2y) s r m x2y x y rest) ∧
        EndsWithUpd (.y m x2y) s y m x2y x y rest

/-- SHR: bit k of the result is bit k + 1 of X, bit 31 is "XT and X[31]". SHL: X times 2, times 4 where bit 1 of the
operand is set, modulo 2^32 (R139, R140; the spec's decision D11 for the operands its source does not name, log entry
16). On a stack of two or more, as for `ArithmeticResults`. -/
def Obligations.ShiftResults : Prop :=
  ∀ (s : State) (x y : Word) (rest : List Word) (m : StackMove) (x2y xt : Bool) (k : BitVec 4),
    s.estack = x :: y :: rest → HasRoom s m →
      (∃ r : Word, (∀ b < 31, r.getLsbD b = x.getLsbD (b + 1)) ∧ r.getLsbD 31 = (xt && x.getLsbD 31) ∧
        EndsWithUpd (.shr m x2y xt) s r m x2y x y rest) ∧
      EndsWithUpd (.shl m x2y k) s (word (x.toNat * if k.getLsbD 1 then 4 else 2)) m x2y x y rest

/-- BPLC, BROT, BSEL in arithmetic: with p the two low bits of Y, byte 0 being the most significant one, BPLC gives the
low byte of X times 256^(3 − p), BSEL the byte of X at weight 256^(3 − p); BROT gives X times 256 plus its old top byte,
modulo 2^32 (R144 to R146; the spec's decision D12, log entry 16). On a stack of two or more, as for
`ArithmeticResults`. -/
def Obligations.ByteResults : Prop :=
  ∀ (s : State) (x y : Word) (rest : List Word) (m : StackMove) (x2y : Bool),
    s.estack = x :: y :: rest → HasRoom s m →
      EndsWithUpd (.bplc m x2y) s (word (x.toNat % 256 * 256 ^ (3 - y.toNat % 4))) m x2y x y rest ∧
        EndsWithUpd (.brot m x2y) s (word (x.toNat * 256 + x.toNat / 2 ^ 24)) m x2y x y rest ∧
        EndsWithUpd (.bsel m x2y) s (word (x.toNat / 256 ^ (3 - y.toNat % 4) % 256)) m x2y x y rest

/-- CMP and CMPU with every selector: EQ, LT (Y < X), NE, LE, GE, GT of R88's table, 0 for pattern 000 and 1 for 100;
signed for CMP, unsigned for CMPU; the result is the word 1 or the word 0. On a stack of two or more, as for
`ArithmeticResults`. -/
def Obligations.CompareResults : Prop :=
  ∀ (s : State) (x y : Word) (rest : List Word) (m : StackMove) (x2y : Bool),
    s.estack = x :: y :: rest → HasRoom s m →
      (CmpGives s m x2y x y rest false true false (x = y) ∧ CmpGives s m x2y x y rest false false true (y.toInt < x.toInt) ∧
        CmpGives s m x2y x y rest true true false (x ≠ y) ∧ CmpGives s m x2y x y rest false true true (y.toInt ≤ x.toInt) ∧
        CmpGives s m x2y x y rest true false true (y.toInt ≥ x.toInt) ∧
        CmpGives s m x2y x y rest true true true (y.toInt > x.toInt) ∧
        CmpGives s m x2y x y rest false false false False ∧ CmpGives s m x2y x y rest true false false True) ∧
      (CmpuGives s m x2y x y rest false true false (x = y) ∧ CmpuGives s m x2y x y rest false false true (y.toNat < x.toNat) ∧
        CmpuGives s m x2y x y rest true true false (x ≠ y) ∧ CmpuGives s m x2y x y rest false true true (y.toNat ≤ x.toNat) ∧
        CmpuGives s m x2y x y rest true false true (y.toNat ≥ x.toNat) ∧
        CmpuGives s m x2y x y rest true true true (y.toNat > x.toNat) ∧
        CmpuGives s m x2y x y rest false false false False ∧ CmpuGives s m x2y x y rest true false false True)

/-- On a stack of one element the ALU functions of X alone complete with the same result as on a deeper stack whose top
is X, the row of R27 being cut to the new depth. -/
def Obligations.OneElementResults : Prop :=
  ∀ (s : State) (x : Word) (m : StackMove) (x2y xt : Bool) (k : BitVec 4),
    s.estack = [x] → HasRoom s m →
      (∃ e, UpdRowOne (~~~x) m x2y x e ∧ EndsWithStack (.not m x2y) s e) ∧
        (∃ r e, (∀ b < 31, r.getLsbD b = x.getLsbD (b + 1)) ∧ r.getLsbD 31 = (xt && x.getLsbD 31) ∧
          UpdRowOne r m x2y x e ∧ EndsWithStack (.shr m x2y xt) s e) ∧
        (∃ e, UpdRowOne (word (x.toNat * if k.getLsbD 1 then 4 else 2)) m x2y x e ∧
          EndsWithStack (.shl m x2y k) s e) ∧
        (∃ e, UpdRowOne (word (x.toNat + k.toNat)) m x2y x e ∧ EndsWithStack (.inc m x2y k) s e) ∧
        (∃ e, UpdRowOne (word (x.toNat - k.toNat)) m x2y x e ∧ EndsWithStack (.dec m x2y k) s e) ∧
        ∃ e, UpdRowOne (word (x.toNat * 256 + x.toNat / 2 ^ 24)) m x2y x e ∧ EndsWithStack (.brot m x2y) s e

/-- On every stack, short ones included, an ALU instruction with room for its movement completes: only the evaluation
stack and PC change, and the depth is `depth + S`. An operand that is absent is any word: the model takes R28's "any
value" (log entry 2). -/
def Obligations.AluCompletesOnEveryStack : Prop :=
  ∀ (s : State) (m : StackMove) (x2y xt : Bool) (sel : Selector) (k : BitVec 4) (i : Instr),
    i ∈ aluInstrs m x2y xt sel k → HasRoom s m → HasElement s m →
      ∃ e, EndsWithStack i s e ∧ (e.length : Int) = s.estack.length + moveNumber m

/-- R28 (c), (d): an instruction stops where its movement leaves the bounds. An ALU instruction, LOADI or STOREI with
S = −1 on an empty stack is `StackUnderflow`, with S = +1 at depth `ESTACK_DEPTH` `StackOverflow`; so are, without a
movement field, a push without room (LOAD, LOADREG, LOADREL, LOADCP, DUP) and a pop without an element (STORE, STOREREG,
CALL, NIP) (the spec's decision D5; log entry 18). -/
def Obligations.StackLimitFaults : Prop :=
  (∀ (s : State) (m : StackMove) (x2y xt : Bool) (sel : Selector) (k : BitVec 4) (i : Instr),
    i ∈ aluInstrs m x2y xt sel k ∨ i = .loadi m x2y ∨ i = .storei m x2y k →
      (m = .sm1 → s.estack = [] → exec i s = .fault (.stackUnderflow 0)) ∧
        (m = .s1 → s.params.estackDepth ≤ s.estack.length → exec i s = .fault (.stackOverflow s.estack.length))) ∧
  ∀ (s : State) (i : Instr),
    (s.params.estackDepth ≤ s.estack.length →
      ((∃ off b, i = .load off b) ∨ (∃ r, i = .loadreg r) ∨ (∃ off, i = .loadrel off) ∨ (∃ off, i = .loadcp off) ∨
        i = .dup) → exec i s = .fault (.stackOverflow s.estack.length)) ∧
    (s.estack = [] →
      ((∃ off b, i = .store off b) ∨ (∃ r, i = .storereg r) ∨ i = .call ∨ i = .nip) →
        exec i s = .fault (.stackUnderflow 0))

/-- The stack aliases, as R165 to R169 draw them: DROP (… a b) to (… a); SWAP, OVER on two elements; DUP (… a) to (… a a);
NIP (… a b) to (… b). DROP and NIP empty a stack of one element. DUP's setting is the spec's decision D3. -/
def Obligations.StackAliasEffects : Prop :=
  (∀ (s : State) (x : Word) (rest : List Word), s.estack = x :: rest → EndsWithStack .drop s rest) ∧
    (∀ (s : State) (x y : Word) (rest : List Word), s.estack = x :: y :: rest →
      EndsWithStack .swap s (y :: x :: rest) ∧ EndsWithStack .nip s (x :: rest) ∧
        (HasRoom s .s1 → EndsWithStack .over s (y :: x :: y :: rest))) ∧
    (∀ (s : State) (x : Word) (rest : List Word), s.estack = x :: rest → HasRoom s .s1 →
      EndsWithStack .dup s (x :: x :: rest)) ∧
    ∀ (s : State) (x : Word), s.estack = [x] → EndsWithStack .nip s []

/-- R165, DROP: the setting `Y.SM1`, word 0x2E30; the topmost element is removed and nothing else changes; on an empty
stack it is `StackUnderflow`, on a stack of one element it is no fault and leaves the empty stack. That the word decodes
under the name DROP, where R107 finds Y, is the model's choice (log entry 6); the stop on an empty stack is R28 (c), the
spec's decision D5. -/
def Obligations.DropRemovesTop : Prop :=
  decode 0x2E30#16 = .ok .drop ∧ encode .drop = 0x2E30#16 ∧
    ∀ s : State, exec .drop s = exec (.y .sm1 false) s ∧
      (∀ (x : Word) (rest : List Word), s.estack = x :: rest → EndsWithStack .drop s rest) ∧
      (s.estack = [] → exec .drop s = .fault (.stackUnderflow 0))

/-- R167, OVER: the setting `Y.S1.X2Y`, word 0x2E50; [X, Y, rest] becomes [Y, X, Y, rest] and nothing else changes; at depth
`ESTACK_DEPTH` it is `StackOverflow`. That the word decodes under the name OVER, where R107 finds Y, is the model's choice
(log entry 6); the stop without room is R28 (d), the spec's decision D5. -/
def Obligations.OverCopiesSecond : Prop :=
  decode 0x2E50#16 = .ok .over ∧ encode .over = 0x2E50#16 ∧
    ∀ s : State, exec .over s = exec (.y .s1 true) s ∧
      (∀ (x y : Word) (rest : List Word), s.estack = x :: y :: rest → s.estack.length < s.params.estackDepth →
        EndsWithStack .over s (y :: x :: y :: rest)) ∧
      (s.params.estackDepth ≤ s.estack.length → exec .over s = .fault (.stackOverflow s.estack.length))

/-! ## Branches and transfers -/

/-- R120, BRANCH: the signed offset is added to PC, the address of the BRANCH, modulo 2^32, and nothing else changes; an
odd offset is `OddPC`. Its word is `000 off13`. The stop on an odd target is the spec's decision D20 (R33; log entry 9),
the wrap modulo 2^32 its decisions D1 and D20 (R62; log entry 20). -/
def Obligations.BranchAddsOffset : Prop :=
  ∀ (s : State) (off : BitVec 13), s.pc.getLsbD 0 = false →
    (off.getLsbD 0 = false → exec (.branch off) s = .next { s with pc := word (s.pc.toNat + off.toInt) }) ∧
      (off.getLsbD 0 = true → exec (.branch off) s = .fault (.oddPC (word (s.pc.toNat + off.toInt)))) ∧
      decode (0b000#3 ++ off) = .ok (.branch off)

/-- R121, CBRANCH: X is removed, taken or not; the branch is taken on a nonzero X with N = 1, on a zero X with N = 0. The
offset is from the CBRANCH itself, the spec's decision D8 (log entry 24); on an empty stack it is `StackUnderflow` (log
entry 18). -/
def Obligations.CbranchPopsAndTests : Prop :=
  ∀ (s : State) (off : BitVec 13) (n : Bool),
    (∀ (x : Word) (rest : List Word), s.estack = x :: rest →
      exec (.cbranch off n) s = .next { s with
        estack := rest
        pc := if (n = true ∧ x ≠ 0#32) ∨ (n = false ∧ x = 0#32) then word (s.pc.toNat + off.toInt)
          else word (s.pc.toNat + 2) }) ∧
      (s.estack = [] → exec (.cbranch off n) s = .fault (.stackUnderflow 0))

/-- R175, XFER with fields that are not reserved, under both disciplines: it completes where the word R2P reads exists
(`w`), the word P2R writes exists, an element is there to pop and the target is even. PC becomes X (X2P), the word read
from the return stack (R2P), or PC + 2; RP moves by −4 · RS; S = −1 removes X; P2R writes PC + 2. FP and BP stay, and
so does the rest of memory. The combinations other than JUMP, CALL, RET are the spec's decision D24 (log entry 17). -/
def Obligations.XferMovesByItsFields : Prop :=
  ∀ (s : State) (rs m : StackMove) (r2p p2r x2p : Bool) (x w target : Word),
    s.mem.wf = true → m ≠ .s1 → (r2p = true → x2p = false) → HasElement s m →
    (x2p = true → ∃ rest, s.estack = x :: rest) → (r2p = true → WordAt s (aligned (popAddr s rs)) w) →
    (p2r = true → Exists s (aligned (pushAddr s rs))) →
    target = (if x2p then x else if r2p then w else s.pc + 2#32) → target.getLsbD 0 = false →
      ∃ t, exec (.xfer rs r2p p2r m x2p) s = .next t ∧ t.pc = target ∧ t.rp = newRp s rs ∧
        t.estack = (if m = .sm1 then s.estack.tail else s.estack) ∧ t.fp = s.fp ∧ t.bp = s.bp ∧
        t.params = s.params ∧ t.freeCount = s.freeCount ∧ (p2r = false → SameMemory s t) ∧
        (p2r = true → StoredWord s t (aligned (pushAddr s rs)) (s.pc + 2#32))

/-- R176, JUMP: PC becomes X, which is removed; RP and memory are untouched; an odd X is `OddPC`. An empty stack is
`StackUnderflow` (log entry 18). -/
def Obligations.JumpGoesToX : Prop :=
  ∀ s : State,
    (∀ (x : Word) (rest : List Word), s.estack = x :: rest →
      (x.getLsbD 0 = false → exec .jump s = .next { s with pc := x, estack := rest }) ∧
        (x.getLsbD 0 = true → exec .jump s = .fault (.oddPC x))) ∧
      (s.estack = [] → exec .jump s = .fault (.stackUnderflow 0))

/-- R177, CALL: PC becomes X, which is removed; RP goes down by 4; PC + 2 is written at the new RP (`full`) or the old one
(`empty`), the two low address bits ignored. The order is the parameter of the spec's decision D9 (log entry 10). -/
def Obligations.CallSavesReturnAddress : Prop :=
  ∀ (s : State) (x : Word) (rest : List Word), s.mem.wf = true → s.estack = x :: rest → x.getLsbD 0 = false →
    Exists s (aligned (pushAddr s .s1)) →
      ∃ t, exec .call s = .next t ∧ t.pc = x ∧ t.estack = rest ∧ t.rp = word (s.rp.toNat - 4) ∧ t.fp = s.fp ∧
        t.bp = s.bp ∧ t.params = s.params ∧ t.freeCount = s.freeCount ∧
        StoredWord s t (aligned (pushAddr s .s1)) (s.pc + 2#32)

/-- R178, RET: PC becomes the word at RP (`full`) or at RP + 4 (`empty`); RP goes up by 4; nothing else changes. An odd
word is `OddPC`. The order is the parameter of the spec's decision D9 (log entry 10). -/
def Obligations.RetTakesReturnAddress : Prop :=
  ∀ (s : State) (w : Word), WordAt s (aligned (popAddr s .sm1)) w →
    (w.getLsbD 0 = false → exec .ret s = .next { s with pc := w, rp := word (s.rp.toNat + 4) }) ∧
      (w.getLsbD 0 = true → exec .ret s = .fault (.oddPC w))

/-- Matched CALL and RET return, under both disciplines: after a CALL, in any state `u` in which RP and the saved word are
again what the CALL left (whatever the subroutine did to the stack, FP, BP and the rest of memory), RET goes to the
instruction after the CALL, with RP as it was before the CALL. -/
def Obligations.CallThenRetReturns : Prop :=
  ∀ s t u : State, s.mem.wf = true → s.pc.getLsbD 0 = false → exec .call s = .next t → u.rp = t.rp →
    u.params = t.params → (∀ a, aligned a = aligned (pushAddr s .s1) → u.byteAt a = t.byteAt a) →
      exec .ret u = .next { u with pc := s.pc + 2#32, rp := s.rp }

/-! ## Memory -/

/-- R61, R63: a read sees the latest write to its word and no write to another word; whatever the two low bits of the
addresses (R54; the spec's decisions D7 and D18). -/
def Obligations.ReadSeesLatestWrite : Prop :=
  ∀ (s t : State) (a v : Word), s.mem.wf = true → s.memWrite a v = .ok t →
    (∀ b, aligned b = aligned a → t.memRead b = .ok v) ∧ ∀ b, aligned b ≠ aligned a → t.memRead b = s.memRead b

/-- R56, R52: where the word exists, a read gives its four bytes, the one at the lowest address the most significant;
where it does not, a read and a write are `UnmappedAccess` with the word address (the spec's decisions D7 and D21). -/
def Obligations.MemoryPrimitives : Prop :=
  ∀ (s : State) (a v : Word),
    (∀ w, WordAt s (aligned a) w → s.memRead a = .ok w) ∧
      (¬ Exists s (aligned a) →
        s.memRead a = .error (.unmappedAccess .read (aligned a)) ∧
          s.memWrite a v = .error (.unmappedAccess .write (aligned a)))

/-- Memories in the canonical form that read alike are equal data. -/
def Obligations.CanonicalMemoriesAreEqual : Prop :=
  ∀ m n : Memory, m.wf = true → n.wf = true → (∀ a, m.readByte a = n.readByte a) → m = n

/-! ## Loads, stores, constants, registers -/

/-- R192, LOADC: the sign-extended 13-bit constant is pushed and nothing else changes; at depth `ESTACK_DEPTH` it is
`StackOverflow` (R28 (d), the spec's decision D5). Its word is `110 imm13`. -/
def Obligations.LoadcPushesConstant : Prop :=
  ∀ (s : State) (c : BitVec 13),
    (s.estack.length < s.params.estackDepth →
      exec (.loadc c) s = .next { s with estack := word c.toInt :: s.estack, pc := s.pc + 2#32 }) ∧
      (s.params.estackDepth ≤ s.estack.length → exec (.loadc c) s = .fault (.stackOverflow s.estack.length)) ∧
      -4096 ≤ c.toInt ∧ c.toInt ≤ 4095 ∧ decode (0b110#3 ++ c) = .ok (.loadc c)

/-- R191, LOAD: the word at FP or BP plus the offset, modulo 2^32 and with the two low bits ignored, is pushed, and nothing
else changes. R195, R196, LOADREL and LOADCP: the same of the address of the instruction plus the unsigned offset, a base
that is the spec's decision D8 (log entry 24). -/
def Obligations.LoadsPushWord : Prop :=
  ∀ (s : State) (w : Word), s.estack.length < s.params.estackDepth →
    (∀ (off : BitVec 13) (b : Base), WordAt s (aligned (localEa s off b)) w →
      exec (.load off b) s = .next { s with estack := w :: s.estack, pc := s.pc + 2#32 }) ∧
    ∀ off : BitVec 10, WordAt s (aligned (word (s.pc.toNat + off.toNat))) w →
      exec (.loadrel off) s = .next { s with estack := w :: s.estack, pc := s.pc + 2#32 } ∧
        exec (.loadcp off) s = .next { s with estack := w :: s.estack, pc := s.pc + 2#32 }

/-- R193, LOADI: the word at the address X, its two low bits ignored, is the result of the stack update, and nothing else
changes; on a stack of two or more, and on one of one element. -/
def Obligations.LoadiReadsThroughX : Prop :=
  ∀ (s : State) (x w : Word) (m : StackMove) (x2y : Bool), HasRoom s m → WordAt s (aligned x) w →
    (∀ (y : Word) (rest : List Word), s.estack = x :: y :: rest →
      EndsWithUpd (.loadi m x2y) s w m x2y x y rest) ∧
      (s.estack = [x] → ∃ e, UpdRowOne w m x2y x e ∧ EndsWithStack (.loadi m x2y) s e)

/-- R190, STORE: X is written at FP or BP plus the offset, modulo 2^32 and with the two low bits ignored, and removed (the
spec's decision D10, log entry 24); every other byte, the registers and the other elements stay. -/
def Obligations.StoreWritesLocal : Prop :=
  ∀ (s : State) (off : BitVec 13) (b : Base) (x : Word) (rest : List Word), s.mem.wf = true → s.estack = x :: rest →
    Exists s (aligned (localEa s off b)) →
      ∃ t, exec (.store off b) s = .next t ∧ t.estack = rest ∧ t.pc = s.pc + 2#32 ∧ SameRegisters s t ∧
        t.freeCount = s.freeCount ∧ StoredWord s t (aligned (localEa s off b)) x

/-- R194, STOREI: X is written at the address Y, its two low bits ignored; Y plus the increment, modulo 2^32, is the result
of the stack update; every other byte and the registers stay. -/
def Obligations.StoreiWritesThroughY : Prop :=
  ∀ (s : State) (x y : Word) (rest : List Word) (m : StackMove) (x2y : Bool) (k : BitVec 4), s.mem.wf = true →
    s.estack = x :: y :: rest → HasRoom s m → Exists s (aligned y) →
      ∃ t, exec (.storei m x2y k) s = .next t ∧ UpdRow (word (y.toNat + k.toNat)) m x2y x y rest t.estack ∧
        t.pc = s.pc + 2#32 ∧ SameRegisters s t ∧ StoredWord s t (aligned y) x

/-- R60, R217: with the stack in order, an access to a word that does not exist stops LOAD, LOADREL, LOADCP, LOADI, STORE
and STOREI with `UnmappedAccess`, naming the word address (the spec's decisions D7, D15, D21). -/
def Obligations.UnmappedDataAccessFaults : Prop :=
  ∀ s : State,
    (s.estack.length < s.params.estackDepth →
      (∀ off b, ¬ Exists s (aligned (localEa s off b)) →
        exec (.load off b) s = .fault (.unmappedAccess .read (aligned (localEa s off b)))) ∧
      (∀ off : BitVec 10, ¬ Exists s (aligned (word (s.pc.toNat + off.toNat))) →
        exec (.loadrel off) s = .fault (.unmappedAccess .read (aligned (word (s.pc.toNat + off.toNat)))) ∧
          exec (.loadcp off) s = .fault (.unmappedAccess .read (aligned (word (s.pc.toNat + off.toNat)))))) ∧
    (∀ x rest, s.estack = x :: rest →
      (∀ off b, ¬ Exists s (aligned (localEa s off b)) →
        exec (.store off b) s = .fault (.unmappedAccess .write (aligned (localEa s off b)))) ∧
      (∀ m x2y, HasRoom s m → ¬ Exists s (aligned x) →
        exec (.loadi m x2y) s = .fault (.unmappedAccess .read (aligned x)))) ∧
    ∀ x y rest, s.estack = x :: y :: rest → ∀ m x2y k, HasRoom s m → ¬ Exists s (aligned y) →
      exec (.storei m x2y k) s = .fault (.unmappedAccess .write (aligned y))

/-- R205, LOADREG: the register is pushed and nothing else changes. A register nothing has written holds its reset value
(log entry 1). -/
def Obligations.LoadregPushesRegister : Prop :=
  ∀ s : State, s.estack.length < s.params.estackDepth →
    exec (.loadreg .fp) s = .next { s with estack := s.fp :: s.estack, pc := s.pc + 2#32 } ∧
      exec (.loadreg .bp) s = .next { s with estack := s.bp :: s.estack, pc := s.pc + 2#32 } ∧
      exec (.loadreg .rp) s = .next { s with estack := s.rp :: s.estack, pc := s.pc + 2#32 }

/-- R206, STOREREG: the named register becomes X, all 32 bits, X is removed, and nothing else changes. -/
def Obligations.StoreregPopsIntoRegister : Prop :=
  ∀ (s : State) (x : Word) (rest : List Word), s.estack = x :: rest →
    exec (.storereg .fp) s = .next { s with fp := x, estack := rest, pc := s.pc + 2#32 } ∧
      exec (.storereg .bp) s = .next { s with bp := x, estack := rest, pc := s.pc + 2#32 } ∧
      exec (.storereg .rp) s = .next { s with rp := x, estack := rest, pc := s.pc + 2#32 }

/-- R207, FPADJ: the signed constant is added to FP modulo 2^32 and nothing else changes, in every state (an FP nothing has
written holds its reset value, log entry 1). -/
def Obligations.FpadjAddsToFp : Prop :=
  ∀ (s : State) (c : BitVec 10),
    exec (.fpadj c) s = .next { s with fp := word (s.fp.toNat + c.toInt), pc := s.pc + 2#32 }

/-- R98 (a), R218: the four reserved EXT classes stop with `ReservedEncoding`, naming the word and PC, in every state (the
spec's decision D14). -/
def Obligations.ReservedExtStops : Prop :=
  ∀ (s : State) (rest : BitVec 10),
    exec (.reservedExt010 rest) s = .fault (.reservedEncoding (0b111010#6 ++ rest) s.pc) ∧
      exec (.reservedExt100 rest) s = .fault (.reservedEncoding (0b111100#6 ++ rest) s.pc) ∧
      exec (.reservedExt110 rest) s = .fault (.reservedEncoding (0b111110#6 ++ rest) s.pc) ∧
      exec (.reservedExt111 rest) s = .fault (.reservedEncoding (0b111111#6 ++ rest) s.pc)

/-- LOADI, STOREI and XFER.X2P where X or Y is absent run on as well, the absent operand being any word: the model takes
R28's "any value" (log entry 2). `State.x` and `State.y` are the operands the machine reads, free values where absent. -/
def Obligations.AbsentOperandsAreAnyWord : Prop :=
  ∀ (s : State) (m rs : StackMove) (x2y : Bool) (k : BitVec 4), s.mem.wf = true → HasRoom s m → HasElement s m →
    (∀ w, WordAt s (aligned s.x) w → ∃ e, EndsWithStack (.loadi m x2y) s e ∧
      (e.length : Int) = s.estack.length + moveNumber m ∧ (e = [] ∨ e.head? = some w)) ∧
    (Exists s (aligned s.y) → ∃ t, exec (.storei m x2y k) s = .next t ∧ StoredWord s t (aligned s.y) s.x ∧
      (t.estack.length : Int) = s.estack.length + moveNumber m ∧
      (t.estack = [] ∨ t.estack.head? = some (word (s.y.toNat + k.toNat))) ∧ t.pc = s.pc + 2#32 ∧ SameRegisters s t) ∧
    (s.x.getLsbD 0 = false → ∃ t, exec (.xfer rs false false .s0 true) s = .next t ∧ t.pc = s.x ∧ t.rp = newRp s rs ∧
      t.estack = s.estack ∧ t.fp = s.fp ∧ t.bp = s.bp ∧ t.params = s.params ∧ SameMemory s t)

/-- The byte-load idiom: "a byte address can be used to select that byte from a 32-bit word" (R146, R52). With the byte
address `a` on the stack, LOADI.S1.X2Y and then BSEL leave the byte of memory at `a`, zero-extended, in its place. -/
def Obligations.ByteLoadIdiom : Prop :=
  ∀ (s : State) (a : Word) (b : Byte) (rest : List Word), s.estack = a :: rest →
    s.estack.length < s.params.estackDepth → s.byteAt a = some b →
      ∃ t u, exec (.loadi .s1 true) s = .next t ∧ exec (.bsel .sm1 false) t = .next u ∧
        u.estack = b.setWidth 32 :: rest ∧ u.pc = s.pc + 4#32 ∧ SameRegisters s u ∧ SameMemory s u
end

