-- ==== Sys2Proof/Laws/Encoding.lean ====
section
/-! SUPPORT. The fields of the encoder's formats, as the decoder reads them. -/

namespace Sys2Proof

/-! ## Movements, registers, selectors, base registers -/

@[simp] theorem decodeMove_encodeMove (m : StackMove) : decodeMove (encodeMove m) = some m := by
  cases m <;> rfl

@[simp] theorem decodeReg_encodeReg (r : Reg) : decodeReg (encodeReg r) = some r := by
  cases r <;> rfl

@[simp] theorem decodeSelector_encodeSelector (sel : Selector) : decodeSelector (encodeSelector sel) = some sel := by
  obtain ⟨ci, ce, cl⟩ := sel
  cases ci <;> cases ce <;> cases cl <;> rfl

@[simp] theorem decodeBase_encodeBase (b : Base) : decodeBase (encodeBase b) = b := by
  cases b <;> rfl

/-! ## A word cut in two -/

/-- Bit `i` of a word made of `a` above `b`. -/
theorem getLsbD_join {m n : Nat} (h : m + n = 16) (a : BitVec m) (b : BitVec n) (i : Nat) :
    ((a ++ b).cast h : Ins).getLsbD i = if i < n then b.getLsbD i else a.getLsbD (i - n) := by
  rw [BitVec.getLsbD_cast, BitVec.getLsbD_append]

theorem field_high {m n : Nat} (h : m + n = 16) (a : BitVec m) (b : BitVec n) :
    field ((a ++ b).cast h) n m = a := by
  ext i hi
  simp only [field, BitVec.getElem_extractLsb', getLsbD_join]
  simp [BitVec.getLsbD_eq_getElem hi]

theorem field_low {m n : Nat} (h : m + n = 16) (a : BitVec m) (b : BitVec n) :
    field ((a ++ b).cast h) 0 n = b := by
  ext i hi
  simp only [field, BitVec.getElem_extractLsb', getLsbD_join]
  simp [hi]

/-- The opcode of a word with three opcode bits (R80). -/
@[simp] theorem field_high3 (a : BitVec 3) (b : BitVec 13) : field (a ++ b) 13 3 = a :=
  field_high (m := 3) (n := 13) rfl a b

/-- The operand of a word with three opcode bits. -/
@[simp] theorem field_low13 (a : BitVec 3) (b : BitVec 13) : field (a ++ b) 0 13 = b :=
  field_low (m := 3) (n := 13) rfl a b

/-- The operand of a word with six opcode bits. -/
@[simp] theorem field_low10 (a : BitVec 6) (b : BitVec 10) : field (a ++ b) 0 10 = b :=
  field_low (m := 6) (n := 10) rfl a b

/-- The even offset of formats M and CB is read back (R89, R91). -/
theorem evenOffset_formatM (op : BitVec 3) (offset : BitVec 13) (flag : Bool) (h : offset.getLsbD 0 = false) :
    evenOffset (formatM op offset flag) = offset := by
  rw [evenOffset, formatM]
  ext i hi
  simp only [field, BitVec.getElem_append, BitVec.getElem_extractLsb', BitVec.getLsbD_append]
  interval_cases i <;> simp_all [BitVec.getLsbD_eq_getElem]

end Sys2Proof
end

