-- ==== Sys2Proof/Laws/Memory.lean ====
section
/-! SUPPORT. What the memory operations do: reads after writes, the canonical form, the set of words stored to. -/

namespace Sys2Proof.Machine

/-! ## One byte -/

theorem cellsWf_cons {lo k : Nat} {b : Byte} {rest : List Host.Cell} :
    cellsWf lo ((k, b) :: rest) = true ↔
      lo ≤ k ∧ k < 2 ^ 32 ∧ b ≠ unlistedByte ∧ cellsWf (k + 1) rest = true := by
  simp [cellsWf, and_assoc]

theorem cellsWf_mono {lo lo' : Nat} {l : List Host.Cell} (h : cellsWf lo l = true) (hle : lo' ≤ lo) :
    cellsWf lo' l = true := by
  cases l with
  | nil => rfl
  | cons c rest =>
    obtain ⟨k, b⟩ := c
    rw [cellsWf_cons] at h ⊢
    exact ⟨by omega, h.2⟩

theorem cellAt_of_lt {lo a : Nat} {l : List Host.Cell} (h : cellsWf lo l = true) (ha : a < lo) :
    cellAt l a = unlistedByte := by
  induction l generalizing lo with
  | nil => rfl
  | cons c rest ih =>
    obtain ⟨k, b⟩ := c
    rw [cellsWf_cons] at h
    rw [cellAt, if_neg (by omega), ih h.2.2.2 (by omega)]

/-- A write changes exactly the byte it writes. -/
theorem cellAt_setCell {lo : Nat} {l : List Host.Cell} (h : cellsWf lo l = true) (a b : Nat) (v : Byte) :
    cellAt (setCell a v l) b = if b = a then v else cellAt l b := by
  induction l generalizing lo with
  | nil => simp only [setCell, cellAt]; split_ifs <;> simp_all [cellAt]; omega
  | cons c rest ih =>
    obtain ⟨k, w⟩ := c
    rw [cellsWf_cons] at h
    have low : ∀ n, n < k + 1 → cellAt rest n = unlistedByte := fun n hn => cellAt_of_lt h.2.2.2 hn
    simp only [setCell]
    split_ifs <;> try simp only [cellAt, ih h.2.2.2]
    all_goals try split_ifs
    all_goals
      first
        | rfl
        | omega
        | (subst_vars; simp_all)

/-- A write keeps the canonical form. -/
theorem cellsWf_setCell {lo a : Nat} {l : List Host.Cell} (h : cellsWf lo l = true) (hlo : lo ≤ a) (ha : a < 2 ^ 32)
    (v : Byte) : cellsWf lo (setCell a v l) = true := by
  induction l generalizing lo with
  | nil =>
    by_cases hv : v = unlistedByte
    · simp [setCell, hv, cellsWf]
    · simp only [setCell, if_neg hv]
      exact cellsWf_cons.2 ⟨hlo, ha, hv, rfl⟩
  | cons c rest ih =>
    obtain ⟨k, w⟩ := c
    have hc := h
    rw [cellsWf_cons] at h
    simp only [setCell]
    split_ifs with h1 h2 h3 h4
    · exact cellsWf_cons.2 ⟨h.1, h.2.1, h.2.2.1, ih h.2.2.2 (by omega)⟩
    · exact cellsWf_mono h.2.2.2 (by omega)
    · exact hc
    · exact cellsWf_cons.2 ⟨hlo, ha, h2, h4 ▸ h.2.2.2⟩
    · exact cellsWf_cons.2 ⟨hlo, ha, h2, cellsWf_cons.2 ⟨by omega, h.2⟩⟩

/-- Reading a byte after writing one. -/
theorem Memory.readByte_writeByte {m : Memory} (h : m.wf = true) (a b : Nat) (v : Byte) :
    (m.writeByte a v).readByte b = if b = a then v else m.readByte b :=
  cellAt_setCell h a b v

/-- `writeByte` keeps the canonical form. -/
theorem Memory.wf_writeByte {m : Memory} (h : m.wf = true) {a : Nat} (ha : a < 2 ^ 32) (v : Byte) :
    (m.writeByte a v).wf = true :=
  cellsWf_setCell h (Nat.zero_le a) ha v

/-! ## One word -/

/-- `writeWord` keeps the canonical form. -/
theorem Memory.wf_writeWord {m : Memory} (h : m.wf = true) {a : Nat} (ha : a + 3 < 2 ^ 32) (v : Word) :
    (m.writeWord a v).wf = true :=
  wf_writeByte (wf_writeByte (wf_writeByte (wf_writeByte h (by omega) _) (by omega) _) (by omega) _) ha _

/-- The byte at `b` after a word write at `a`: one of the word's four bytes, most significant first, or as before. -/
theorem Memory.readByte_writeWord {m : Memory} (h : m.wf = true) {a : Nat} (ha : a + 3 < 2 ^ 32) (v : Word) (b : Nat) :
    (m.writeWord a v).readByte b =
      if b = a + 3 then v.extractLsb' 0 8
      else if b = a + 2 then v.extractLsb' 8 8
      else if b = a + 1 then v.extractLsb' 16 8
      else if b = a then v.extractLsb' 24 8
      else m.readByte b := by
  have h1 := wf_writeByte h (a := a) (by omega) (v.extractLsb' 24 8)
  have h2 := wf_writeByte h1 (a := a + 1) (by omega) (v.extractLsb' 16 8)
  have h3 := wf_writeByte h2 (a := a + 2) (by omega) (v.extractLsb' 8 8)
  rw [writeWord, readByte_writeByte h3, readByte_writeByte h2, readByte_writeByte h1, readByte_writeByte h]

/-- A byte outside the written word is as before. -/
theorem Memory.readByte_writeWord_of_ne {m : Memory} (h : m.wf = true) {a : Nat} (ha : a + 3 < 2 ^ 32) (v : Word)
    {b : Nat} (hb : b < a ∨ a + 3 < b) : (m.writeWord a v).readByte b = m.readByte b := by
  rw [readByte_writeWord h ha, if_neg (by omega), if_neg (by omega), if_neg (by omega), if_neg (by omega)]

/-- The four bytes of a word, most significant first, make the word. -/
theorem bytes_append (v : Word) :
    (v.extractLsb' 24 8 ++ v.extractLsb' 16 8 ++ v.extractLsb' 8 8 ++ v.extractLsb' 0 8 : BitVec 32) = v := by
  ext i hi
  simp only [BitVec.getElem_append, BitVec.getElem_extractLsb']
  split_ifs <;> first | rfl | (rw [← BitVec.getLsbD_eq_getElem]; congr 1; omega)

/-- "a read returns the last value written" (R61): the word just written. -/
theorem Memory.readWord_writeWord {m : Memory} (h : m.wf = true) {a : Nat} (ha : a + 3 < 2 ^ 32) (v : Word) :
    (m.writeWord a v).readWord a = v := by
  simp only [readWord, readByte_writeWord h ha]
  simpa using bytes_append v

/-- Another word is as before. -/
theorem Memory.readWord_writeWord_of_ne {m : Memory} (h : m.wf = true) {a : Nat} (ha : a + 3 < 2 ^ 32) (v : Word)
    {b : Nat} (hb : b + 3 < a ∨ a + 3 < b) : (m.writeWord a v).readWord b = m.readWord b := by
  simp only [readWord]
  rw [readByte_writeWord_of_ne h ha v (b := b) (by omega), readByte_writeWord_of_ne h ha v (b := b + 1) (by omega),
    readByte_writeWord_of_ne h ha v (b := b + 2) (by omega), readByte_writeWord_of_ne h ha v (b := b + 3) (by omega)]

/-! ## Word addresses -/

/-- The value of `addr & ~3` (R54). -/
theorem wordAddr_toNat (a : Word) : (wordAddr a).toNat = a.toNat / 4 * 4 := by
  have h : wordAddr a = (a >>> 2) <<< 2 := by
    ext i hi
    simp only [wordAddr, BitVec.getElem_and, BitVec.getElem_shiftLeft]
    interval_cases i <;> simp
  rw [h, BitVec.toNat_shiftLeft, BitVec.toNat_ushiftRight, Nat.shiftLeft_eq, Nat.shiftRight_eq_div_pow]
  have := a.isLt
  omega

/-- A word address leaves room for its four bytes. -/
theorem wordAddr_bound (a : Word) : (wordAddr a).toNat + 3 < 2 ^ 32 := by
  have h := wordAddr_toNat a
  have := a.isLt
  omega

@[simp] theorem wordAddr_wordAddr (a : Word) : wordAddr (wordAddr a) = wordAddr a := by
  apply BitVec.eq_of_toNat_eq
  simp only [wordAddr_toNat]
  omega

/-! ## The words stored to -/

/-- Adding a word address adds just that one. -/
theorem mem_addWritten {a b : Nat} {l : List Nat} : b ∈ addWritten a l ↔ b = a ∨ b ∈ l := by
  induction l with
  | nil => simp [addWritten]
  | cons k rest ih =>
    simp only [addWritten]
    split_ifs with h1 h2
    · simp only [List.mem_cons, ih]; tauto
    · subst h2; simp only [List.mem_cons]; tauto
    · simp only [List.mem_cons]

theorem writtenWf_cons {lo k : Nat} {rest : List Nat} :
    writtenWf lo (k :: rest) = true ↔ lo ≤ k ∧ k < 2 ^ 32 ∧ k % 4 = 0 ∧ writtenWf (k + 1) rest = true := by
  simp [writtenWf, and_assoc]

/-- Adding a word address keeps the form of the set. -/
theorem writtenWf_addWritten {lo a : Nat} {l : List Nat} (h : writtenWf lo l = true) (hlo : lo ≤ a) (ha : a < 2 ^ 32)
    (h4 : a % 4 = 0) : writtenWf lo (addWritten a l) = true := by
  induction l generalizing lo with
  | nil => exact writtenWf_cons.2 ⟨hlo, ha, h4, rfl⟩
  | cons k rest ih =>
    have hc := h
    rw [writtenWf_cons] at h
    simp only [addWritten]
    split_ifs with h1 h2
    · exact writtenWf_cons.2 ⟨h.1, h.2.1, h.2.2.1, ih h.2.2.2 (by omega)⟩
    · exact hc
    · exact writtenWf_cons.2 ⟨hlo, ha, h4, writtenWf_cons.2 ⟨by omega, h.2⟩⟩

end Sys2Proof.Machine
end

