-- ==== Sys2Proof/Laws/State.lean ====
section
/-! SUPPORT. One lemma per field per update of the state, each true by definition, so that no proof unfolds an update. -/

namespace Sys2Proof.Machine

/-! ## `State.setPc` -/

@[simp] theorem State.setPc_pc (s : State) (v : Word) : (s.setPc v).pc = v := rfl
@[simp] theorem State.setPc_estack (s : State) (v : Word) : (s.setPc v).estack = s.estack := rfl
@[simp] theorem State.setPc_fp (s : State) (v : Word) : (s.setPc v).fp = s.fp := rfl
@[simp] theorem State.setPc_bp (s : State) (v : Word) : (s.setPc v).bp = s.bp := rfl
@[simp] theorem State.setPc_rp (s : State) (v : Word) : (s.setPc v).rp = s.rp := rfl
@[simp] theorem State.setPc_mem (s : State) (v : Word) : (s.setPc v).mem = s.mem := rfl
@[simp] theorem State.setPc_written (s : State) (v : Word) : (s.setPc v).written = s.written := rfl
@[simp] theorem State.setPc_params (s : State) (v : Word) : (s.setPc v).params = s.params := rfl
@[simp] theorem State.setPc_freeCount (s : State) (v : Word) : (s.setPc v).freeCount = s.freeCount := rfl

/-! ## `State.setStack` -/

@[simp] theorem State.setStack_pc (s : State) (v : List Word) : (s.setStack v).pc = s.pc := rfl
@[simp] theorem State.setStack_estack (s : State) (v : List Word) : (s.setStack v).estack = v := rfl
@[simp] theorem State.setStack_fp (s : State) (v : List Word) : (s.setStack v).fp = s.fp := rfl
@[simp] theorem State.setStack_bp (s : State) (v : List Word) : (s.setStack v).bp = s.bp := rfl
@[simp] theorem State.setStack_rp (s : State) (v : List Word) : (s.setStack v).rp = s.rp := rfl
@[simp] theorem State.setStack_mem (s : State) (v : List Word) : (s.setStack v).mem = s.mem := rfl
@[simp] theorem State.setStack_written (s : State) (v : List Word) : (s.setStack v).written = s.written := rfl
@[simp] theorem State.setStack_params (s : State) (v : List Word) : (s.setStack v).params = s.params := rfl
@[simp] theorem State.setStack_freeCount (s : State) (v : List Word) : (s.setStack v).freeCount = s.freeCount := rfl

/-! ## `State.setFp` -/

@[simp] theorem State.setFp_pc (s : State) (v : Word) : (s.setFp v).pc = s.pc := rfl
@[simp] theorem State.setFp_estack (s : State) (v : Word) : (s.setFp v).estack = s.estack := rfl
@[simp] theorem State.setFp_fp (s : State) (v : Word) : (s.setFp v).fp = v := rfl
@[simp] theorem State.setFp_bp (s : State) (v : Word) : (s.setFp v).bp = s.bp := rfl
@[simp] theorem State.setFp_rp (s : State) (v : Word) : (s.setFp v).rp = s.rp := rfl
@[simp] theorem State.setFp_mem (s : State) (v : Word) : (s.setFp v).mem = s.mem := rfl
@[simp] theorem State.setFp_written (s : State) (v : Word) : (s.setFp v).written = s.written := rfl
@[simp] theorem State.setFp_params (s : State) (v : Word) : (s.setFp v).params = s.params := rfl
@[simp] theorem State.setFp_freeCount (s : State) (v : Word) : (s.setFp v).freeCount = s.freeCount := rfl

/-! ## `State.setBp` -/

@[simp] theorem State.setBp_pc (s : State) (v : Word) : (s.setBp v).pc = s.pc := rfl
@[simp] theorem State.setBp_estack (s : State) (v : Word) : (s.setBp v).estack = s.estack := rfl
@[simp] theorem State.setBp_fp (s : State) (v : Word) : (s.setBp v).fp = s.fp := rfl
@[simp] theorem State.setBp_bp (s : State) (v : Word) : (s.setBp v).bp = v := rfl
@[simp] theorem State.setBp_rp (s : State) (v : Word) : (s.setBp v).rp = s.rp := rfl
@[simp] theorem State.setBp_mem (s : State) (v : Word) : (s.setBp v).mem = s.mem := rfl
@[simp] theorem State.setBp_written (s : State) (v : Word) : (s.setBp v).written = s.written := rfl
@[simp] theorem State.setBp_params (s : State) (v : Word) : (s.setBp v).params = s.params := rfl
@[simp] theorem State.setBp_freeCount (s : State) (v : Word) : (s.setBp v).freeCount = s.freeCount := rfl

/-! ## `State.setRp` -/

@[simp] theorem State.setRp_pc (s : State) (v : Word) : (s.setRp v).pc = s.pc := rfl
@[simp] theorem State.setRp_estack (s : State) (v : Word) : (s.setRp v).estack = s.estack := rfl
@[simp] theorem State.setRp_fp (s : State) (v : Word) : (s.setRp v).fp = s.fp := rfl
@[simp] theorem State.setRp_bp (s : State) (v : Word) : (s.setRp v).bp = s.bp := rfl
@[simp] theorem State.setRp_rp (s : State) (v : Word) : (s.setRp v).rp = v := rfl
@[simp] theorem State.setRp_mem (s : State) (v : Word) : (s.setRp v).mem = s.mem := rfl
@[simp] theorem State.setRp_written (s : State) (v : Word) : (s.setRp v).written = s.written := rfl
@[simp] theorem State.setRp_params (s : State) (v : Word) : (s.setRp v).params = s.params := rfl
@[simp] theorem State.setRp_freeCount (s : State) (v : Word) : (s.setRp v).freeCount = s.freeCount := rfl

/-! ## `State.setWord` -/

@[simp] theorem State.setWord_pc (s : State) (a v : Word) : (s.setWord a v).pc = s.pc := rfl
@[simp] theorem State.setWord_estack (s : State) (a v : Word) : (s.setWord a v).estack = s.estack := rfl
@[simp] theorem State.setWord_fp (s : State) (a v : Word) : (s.setWord a v).fp = s.fp := rfl
@[simp] theorem State.setWord_bp (s : State) (a v : Word) : (s.setWord a v).bp = s.bp := rfl
@[simp] theorem State.setWord_rp (s : State) (a v : Word) : (s.setWord a v).rp = s.rp := rfl
@[simp] theorem State.setWord_mem (s : State) (a v : Word) : (s.setWord a v).mem = s.mem.writeWord a.toNat v := rfl
@[simp] theorem State.setWord_written (s : State) (a v : Word) : (s.setWord a v).written = addWritten a.toNat s.written := rfl
@[simp] theorem State.setWord_params (s : State) (a v : Word) : (s.setWord a v).params = s.params := rfl
@[simp] theorem State.setWord_freeCount (s : State) (a v : Word) : (s.setWord a v).freeCount = s.freeCount := rfl

/-! ## `State.tick` -/

@[simp] theorem State.tick_pc (s : State) : (s.tick).pc = s.pc := rfl
@[simp] theorem State.tick_estack (s : State) : (s.tick).estack = s.estack := rfl
@[simp] theorem State.tick_fp (s : State) : (s.tick).fp = s.fp := rfl
@[simp] theorem State.tick_bp (s : State) : (s.tick).bp = s.bp := rfl
@[simp] theorem State.tick_rp (s : State) : (s.tick).rp = s.rp := rfl
@[simp] theorem State.tick_mem (s : State) : (s.tick).mem = s.mem := rfl
@[simp] theorem State.tick_written (s : State) : (s.tick).written = s.written := rfl
@[simp] theorem State.tick_params (s : State) : (s.tick).params = s.params := rfl
@[simp] theorem State.tick_freeCount (s : State) : (s.tick).freeCount = s.freeCount + 3 := rfl

/-! ## `State.advance` -/

@[simp] theorem State.advance_pc (s : State) : (s.advance).pc = s.pc + 2#32 := rfl
@[simp] theorem State.advance_estack (s : State) : (s.advance).estack = s.estack := rfl
@[simp] theorem State.advance_fp (s : State) : (s.advance).fp = s.fp := rfl
@[simp] theorem State.advance_bp (s : State) : (s.advance).bp = s.bp := rfl
@[simp] theorem State.advance_rp (s : State) : (s.advance).rp = s.rp := rfl
@[simp] theorem State.advance_mem (s : State) : (s.advance).mem = s.mem := rfl
@[simp] theorem State.advance_written (s : State) : (s.advance).written = s.written := rfl
@[simp] theorem State.advance_params (s : State) : (s.advance).params = s.params := rfl
@[simp] theorem State.advance_freeCount (s : State) : (s.advance).freeCount = s.freeCount := rfl

/-! ## `State.push` -/

@[simp] theorem State.push_pc (s : State) (v : Word) : (s.push v).pc = s.pc := rfl
@[simp] theorem State.push_estack (s : State) (v : Word) : (s.push v).estack = v :: s.estack := rfl
@[simp] theorem State.push_fp (s : State) (v : Word) : (s.push v).fp = s.fp := rfl
@[simp] theorem State.push_bp (s : State) (v : Word) : (s.push v).bp = s.bp := rfl
@[simp] theorem State.push_rp (s : State) (v : Word) : (s.push v).rp = s.rp := rfl
@[simp] theorem State.push_mem (s : State) (v : Word) : (s.push v).mem = s.mem := rfl
@[simp] theorem State.push_written (s : State) (v : Word) : (s.push v).written = s.written := rfl
@[simp] theorem State.push_params (s : State) (v : Word) : (s.push v).params = s.params := rfl
@[simp] theorem State.push_freeCount (s : State) (v : Word) : (s.push v).freeCount = s.freeCount := rfl

/-! ## `State.pop` -/

@[simp] theorem State.pop_pc (s : State) : (s.pop).pc = s.pc := rfl
@[simp] theorem State.pop_estack (s : State) : (s.pop).estack = s.estack.tail := rfl
@[simp] theorem State.pop_fp (s : State) : (s.pop).fp = s.fp := rfl
@[simp] theorem State.pop_bp (s : State) : (s.pop).bp = s.bp := rfl
@[simp] theorem State.pop_rp (s : State) : (s.pop).rp = s.rp := rfl
@[simp] theorem State.pop_mem (s : State) : (s.pop).mem = s.mem := rfl
@[simp] theorem State.pop_written (s : State) : (s.pop).written = s.written := rfl
@[simp] theorem State.pop_params (s : State) : (s.pop).params = s.params := rfl
@[simp] theorem State.pop_freeCount (s : State) : (s.pop).freeCount = s.freeCount := rfl

/-! ## `State.upd` -/

@[simp] theorem State.upd_pc (s : State) (r : Word) (m : StackMove) (x2y : Bool) : (s.upd r m x2y).pc = s.pc := rfl
@[simp] theorem State.upd_estack (s : State) (r : Word) (m : StackMove) (x2y : Bool) : (s.upd r m x2y).estack = updCells r s.undefCell m x2y s.estack := rfl
@[simp] theorem State.upd_fp (s : State) (r : Word) (m : StackMove) (x2y : Bool) : (s.upd r m x2y).fp = s.fp := rfl
@[simp] theorem State.upd_bp (s : State) (r : Word) (m : StackMove) (x2y : Bool) : (s.upd r m x2y).bp = s.bp := rfl
@[simp] theorem State.upd_rp (s : State) (r : Word) (m : StackMove) (x2y : Bool) : (s.upd r m x2y).rp = s.rp := rfl
@[simp] theorem State.upd_mem (s : State) (r : Word) (m : StackMove) (x2y : Bool) : (s.upd r m x2y).mem = s.mem := rfl
@[simp] theorem State.upd_written (s : State) (r : Word) (m : StackMove) (x2y : Bool) : (s.upd r m x2y).written = s.written := rfl
@[simp] theorem State.upd_params (s : State) (r : Word) (m : StackMove) (x2y : Bool) : (s.upd r m x2y).params = s.params := rfl
@[simp] theorem State.upd_freeCount (s : State) (r : Word) (m : StackMove) (x2y : Bool) : (s.upd r m x2y).freeCount = s.freeCount + 3 := rfl

/-! ## `State.writeReg` and `State.xferStack` -/

@[simp] theorem State.writeReg_pc (s : State) (r : Reg) (v : Word) : (s.writeReg r v).pc = s.pc := by
  cases r <;> rfl

@[simp] theorem State.writeReg_estack (s : State) (r : Reg) (v : Word) : (s.writeReg r v).estack = s.estack := by
  cases r <;> rfl

@[simp] theorem State.writeReg_mem (s : State) (r : Reg) (v : Word) : (s.writeReg r v).mem = s.mem := by
  cases r <;> rfl

@[simp] theorem State.writeReg_written (s : State) (r : Reg) (v : Word) : (s.writeReg r v).written = s.written := by
  cases r <;> rfl

@[simp] theorem State.writeReg_params (s : State) (r : Reg) (v : Word) : (s.writeReg r v).params = s.params := by
  cases r <;> rfl

@[simp] theorem State.writeReg_freeCount (s : State) (r : Reg) (v : Word) : (s.writeReg r v).freeCount = s.freeCount := by
  cases r <;> rfl

theorem State.writeReg_fp (s : State) (r : Reg) (v : Word) :
    (s.writeReg r v).fp = if r = .fp then v else s.fp := by
  cases r <;> rfl

theorem State.writeReg_bp (s : State) (r : Reg) (v : Word) :
    (s.writeReg r v).bp = if r = .bp then v else s.bp := by
  cases r <;> rfl

theorem State.writeReg_rp (s : State) (r : Reg) (v : Word) :
    (s.writeReg r v).rp = if r = .rp then v else s.rp := by
  cases r <;> rfl

@[simp] theorem State.start_params (p : Config.Params) (m : Memory) : (State.start p m).params = p := rfl
@[simp] theorem State.start_mem (p : Config.Params) (m : Memory) : (State.start p m).mem = m := rfl
@[simp] theorem State.nextPc_eq (s : State) : s.nextPc = s.pc + 2#32 := rfl

end Sys2Proof.Machine
end

