-- ==== Sys2Proof/Laws/Ops.lean ====
section
/-! SUPPORT. For each shared operation, once, everything it can do: when it answers, and with what. -/

namespace Sys2Proof.Machine

/-! ## The memory primitives -/

theorem State.memRead_eq_ok {s : State} {a v : Word} :
    s.memRead a = .ok v ↔ mapped s.params (wordAddr a) = true ∧ v = s.mem.readWord (wordAddr a).toNat := by
  unfold memRead
  split_ifs with h <;> simp [h, eq_comm (a := v)]

theorem State.memWrite_eq_ok {s t : State} {a v : Word} :
    s.memWrite a v = .ok t ↔ mapped s.params (wordAddr a) = true ∧ t = s.setWord (wordAddr a) v := by
  unfold memWrite
  split_ifs with h <;> simp [h, eq_comm (a := t)]

theorem State.memRead_eq_error {s : State} {a : Word} {f : Fault} :
    s.memRead a = .error f ↔ mapped s.params (wordAddr a) = false ∧ f = .unmappedAccess .read (wordAddr a) := by
  unfold memRead
  split_ifs with h <;> simp [h, eq_comm (a := f)]

theorem State.memWrite_eq_error {s : State} {a v : Word} {f : Fault} :
    s.memWrite a v = .error f ↔ mapped s.params (wordAddr a) = false ∧ f = .unmappedAccess .write (wordAddr a) := by
  unfold memWrite
  split_ifs with h <;> simp [h, eq_comm (a := f)]

/-- Every memory write of the machine keeps the canonical form of memory. -/
theorem State.wf_setWord {s : State} (h : s.mem.wf = true) (a v : Word) : (s.setWord (wordAddr a) v).mem.wf = true :=
  Memory.wf_writeWord h (wordAddr_bound a) v

/-- Every memory write of the machine keeps the form of the set of words stored to. -/
theorem State.writtenWf_setWord {s : State} (h : writtenWf 0 s.written = true) (a v : Word) :
    writtenWf 0 (s.setWord (wordAddr a) v).written = true :=
  writtenWf_addWritten h (Nat.zero_le _) (wordAddr a).isLt (by rw [wordAddr_toNat]; omega)

/-- The host's load of an instruction keeps the canonical form of memory. -/
theorem Memory.wf_writeIns {m : Memory} (h : m.wf = true) {a : Nat} (ha : a + 1 < 2 ^ 32) (w : Ins) :
    (m.writeIns a w).wf = true :=
  Memory.wf_writeByte (Memory.wf_writeByte h (by omega) _) ha _

/-- The memory after reset has the canonical form. -/
theorem State.wf_reset : State.reset.mem.wf = true := by decide

/-- The fetch answers a word exactly where PC is even, its word exists, and it was not stored to or coherence is set. -/
theorem State.fetch_eq_ok {s : State} {w : Ins} :
    s.fetch = .ok w ↔
      s.pc.getLsbD 0 = false ∧ mapped s.params (wordAddr s.pc) = true ∧
        (s.params.ifetchCoherent = true ∨ (wordAddr s.pc).toNat ∉ s.written) ∧
        w = selectHalf s.pc (s.mem.readWord (wordAddr s.pc).toNat) := by
  unfold fetch
  rcases h1 : s.pc.getLsbD 0 <;> rcases h2 : mapped s.params (wordAddr s.pc) <;>
    rcases h3 : s.params.ifetchCoherent <;> by_cases h4 : (wordAddr s.pc).toNat ∈ s.written <;>
    simp [h2, h4, eq_comm (a := w)]

/-! ## The stack -/

theorem State.moveFault_eq_none {s : State} {m : StackMove} :
    s.moveFault m = none ↔
      (m = .s1 → s.estack.length < s.params.estackDepth) ∧ (m = .sm1 → s.estack ≠ []) := by
  cases m <;> simp [moveFault]

@[simp] theorem State.moveFault_s0 (s : State) : s.moveFault .s0 = none := rfl

/-- The new depth is `depth + S`. -/
theorem length_updCells (r u : Word) (m : StackMove) (x2y : Bool) (e : List Word) (h : m = .sm1 → e ≠ []) :
    (updCells r u m x2y e).length = movedDepth e.length m := by
  rcases e with _ | ⟨a, _ | ⟨b, _ | ⟨c, e⟩⟩⟩ <;> cases m <;> cases x2y <;> simp_all [updCells, movedDepth]

/-- The depth after a movement without a fault is within `ESTACK_DEPTH` if it was before. -/
theorem State.movedDepth_le {s : State} {m : StackMove} (h : s.moveFault m = none)
    (hd : s.estack.length ≤ s.params.estackDepth) : movedDepth s.estack.length m ≤ s.params.estackDepth := by
  rw [State.moveFault_eq_none] at h
  cases m <;> simp only [movedDepth]
  · exact hd
  · exact h.1 rfl
  · omega

@[simp] theorem State.x_cons {s : State} {x : Word} {rest : List Word} (h : s.estack = x :: rest) : s.x = x := by
  simp [State.x, h]

@[simp] theorem State.y_cons {s : State} {x y : Word} {rest : List Word} (h : s.estack = x :: y :: rest) : s.y = y := by
  simp [State.y, h]

/-! ## What the shared operations of the meanings answer -/

theorem State.transfer_eq_next {s t : State} {target : Word} :
    s.transfer target = .next t ↔ target.getLsbD 0 = false ∧ t = s.setPc target := by
  unfold transfer
  rcases target.getLsbD 0 <;> simp [eq_comm (a := t)]

theorem State.pushNext_eq_next {s t : State} {v : Word} :
    s.pushNext v = .next t ↔ s.moveFault .s1 = none ∧ t = (s.push v).advance := by
  unfold pushNext
  split <;> rename_i h <;> simp [h, eq_comm (a := t)]

theorem runAlu_eq_next {f : Word → Word → Word} {m : StackMove} {x2y : Bool} {s t : State} :
    runAlu f m x2y s = .next t ↔ s.moveFault m = none ∧ t = (s.upd (f s.x s.y) m x2y).advance := by
  unfold runAlu
  split <;> rename_i h <;> simp [h, eq_comm (a := t)]

theorem loadAndPush_eq_next {a : Word} {s t : State} :
    loadAndPush a s = .next t ↔
      s.moveFault .s1 = none ∧ ∃ v, s.memRead a = .ok v ∧ t = (s.push v).advance := by
  unfold loadAndPush
  split
  · rename_i h; simp [h]
  · rename_i h; split <;> rename_i g <;> simp [h, g, eq_comm (a := t)]

theorem execStore_eq_next {offset : BitVec 13} {b : Base} {s t : State} :
    execStore offset b s = .next t ↔
      s.moveFault .sm1 = none ∧ ∃ u, s.memWrite (s.localAddr offset b) s.x = .ok u ∧ t = u.pop.advance := by
  unfold execStore
  split
  · rename_i h; simp [h]
  · rename_i h; split <;> rename_i g <;> simp [h, g, eq_comm (a := t)]

theorem execLoadi_eq_next {m : StackMove} {x2y : Bool} {s t : State} :
    execLoadi m x2y s = .next t ↔
      s.moveFault m = none ∧ ∃ v, s.memRead s.x = .ok v ∧ t = (s.upd v m x2y).advance := by
  unfold execLoadi
  split
  · rename_i h; simp [h]
  · rename_i h; split <;> rename_i g <;> simp [h, g, eq_comm (a := t)]

theorem execStorei_eq_next {m : StackMove} {x2y : Bool} {k : BitVec 4} {s t : State} :
    execStorei m x2y k s = .next t ↔
      s.moveFault m = none ∧
        ∃ u, s.memWrite s.y s.x = .ok u ∧ t = (u.upd (s.y + zext4 k) m x2y).advance := by
  unfold execStorei
  split
  · rename_i h; simp [h]
  · rename_i h; split <;> rename_i g <;> simp [h, g, eq_comm (a := t)]

theorem execCbranch_eq_next {offset : BitVec 13} {n : Bool} {s t : State} :
    execCbranch offset n s = .next t ↔
      s.moveFault .sm1 = none ∧
        t = s.pop.setPc (if branchTaken n s.x then s.branchTarget offset else s.nextPc) := by
  unfold execCbranch
  split <;> rename_i h <;> simp [h, eq_comm (a := t)]

theorem execStorereg_eq_next {r : Reg} {s t : State} :
    execStorereg r s = .next t ↔ s.moveFault .sm1 = none ∧ t = (s.writeReg r s.x).pop.advance := by
  unfold execStorereg
  split <;> rename_i h <;> simp [h, eq_comm (a := t)]

@[simp] theorem State.xferStack_regs (s : State) (m : StackMove) (x2p : Bool) :
    (s.xferStack m x2p).pc = s.pc ∧ (s.xferStack m x2p).fp = s.fp ∧ (s.xferStack m x2p).bp = s.bp ∧
      (s.xferStack m x2p).rp = s.rp ∧ (s.xferStack m x2p).mem = s.mem ∧
      (s.xferStack m x2p).written = s.written ∧ (s.xferStack m x2p).params = s.params := by
  unfold xferStack
  cases m <;> cases x2p <;> simp <;> split <;> simp

theorem State.xferStack_estack (s : State) (m : StackMove) (x2p : Bool) :
    (s.xferStack m x2p).estack = if m = .sm1 then s.estack.tail else s.estack := by
  unfold xferStack
  cases m <;> cases x2p <;> simp <;> split <;> simp

/-- Everything an XFER that completes does (R175). -/
theorem runXfer_eq_next {rs m : StackMove} {r2p p2r x2p : Bool} {s t : State} :
    runXfer rs r2p p2r m x2p s = .next t ↔
      m ≠ .s1 ∧ (r2p = true → x2p = false) ∧ s.moveFault m = none ∧
        ∃ target u, s.returnTarget rs r2p = .ok target ∧ s.saveReturn rs p2r = .ok u ∧
          (if x2p then s.x else target).getLsbD 0 = false ∧
          t = ((u.setRp (movedRp s.rp rs)).xferStack m x2p).setPc (if x2p then s.x else target) := by
  unfold runXfer
  by_cases hm : m = .s1
  · simp [hm]
  by_cases hc : (r2p && x2p) = true
  · simp only [Bool.and_eq_true] at hc
    simp [hc]
  have hc' : r2p = true → x2p = false := by
    cases r2p <;> cases x2p <;> simp_all
  rw [if_neg (by simp [hm, hc])]
  split
  · simp_all
  · split
    · simp_all
    · split
      · simp_all
      · rw [State.transfer_eq_next]
        simp_all

/-- The state an XFER's return-address write leaves differs only in memory and in the words stored to. -/
theorem State.saveReturn_eq_ok {s u : State} {rs : StackMove} {p2r : Bool} :
    s.saveReturn rs p2r = .ok u ↔
      (p2r = false ∧ u = s) ∨
        (p2r = true ∧ mapped s.params (wordAddr (s.returnWriteAddr rs)) = true ∧
          u = s.setWord (wordAddr (s.returnWriteAddr rs)) s.nextPc) := by
  unfold saveReturn
  cases p2r <;> simp [State.memWrite_eq_ok, eq_comm (a := u)]

theorem State.returnTarget_eq_ok {s : State} {rs : StackMove} {r2p : Bool} {v : Word} :
    s.returnTarget rs r2p = .ok v ↔
      (r2p = false ∧ v = s.nextPc) ∨ (r2p = true ∧ s.memRead (s.returnReadAddr rs) = .ok v) := by
  unfold returnTarget
  cases r2p <;> simp [eq_comm (a := v)]

end Sys2Proof.Machine
end

