-- ==== Sys2Proof/Laws/PerInstr.lean ====
section
/-! SUPPORT. The family `OpcodeRow`: the encoder agrees with the rows of spec/opcode_table.json, one lemma per
constructor. -/

namespace Sys2Proof.Laws

/-- The key `mask` of the instruction's row in spec/opcode_table.json. -/
def rowMask : Instr → Ins
  | .branch _ | .store _ _ | .xfer _ _ _ _ _ | .load _ _ | .cbranch _ _ | .loadc _ => 0xE000#16
  | .add _ _ | .sub _ _ | .not _ _ | .and _ _ | .or _ _ | .xor _ _ | .cmp _ _ _ | .y _ _ | .shr _ _ _
  | .shl _ _ _ | .inc _ _ _ | .dec _ _ _ | .cmpu _ _ _ | .bplc _ _ | .brot _ _ | .bsel _ _ | .loadreg _
  | .storereg _ | .loadi _ _ | .storei _ _ _ => 0xFE00#16
  | .fpadj _ | .loadrel _ | .reservedExt010 _ | .reservedExt100 _ | .reservedExt110 _ | .reservedExt111 _
  | .loadcp _ => 0xFC00#16
  | .drop | .swap | .over => 0xFE70#16
  | .dup | .nip => 0xFE7F#16
  | .jump | .call | .ret => 0xE3F1#16

/-- The key `match` of the instruction's row in spec/opcode_table.json. -/
def rowMatch : Instr → Ins
  | .branch _ => 0x0000#16
  | .add _ _ => 0x2000#16
  | .sub _ _ => 0x2200#16
  | .not _ _ => 0x2400#16
  | .and _ _ => 0x2600#16
  | .or _ _ => 0x2800#16
  | .xor _ _ => 0x2A00#16
  | .cmp _ _ _ => 0x2C00#16
  | .y _ _ => 0x2E00#16
  | .shr _ _ _ => 0x3000#16
  | .shl _ _ _ => 0x3200#16
  | .inc _ _ _ => 0x3400#16
  | .dec _ _ _ => 0x3600#16
  | .cmpu _ _ _ => 0x3800#16
  | .bplc _ _ => 0x3A00#16
  | .brot _ _ => 0x3C00#16
  | .bsel _ _ => 0x3E00#16
  | .store _ _ => 0x4000#16
  | .xfer _ _ _ _ _ => 0x6000#16
  | .load _ _ => 0x8000#16
  | .cbranch _ _ => 0xA000#16
  | .loadc _ => 0xC000#16
  | .loadreg _ => 0xE000#16
  | .storereg _ => 0xE200#16
  | .loadi _ _ => 0xE400#16
  | .storei _ _ _ => 0xE600#16
  | .fpadj _ => 0xEC00#16
  | .loadrel _ => 0xF400#16
  | .reservedExt010 _ => 0xE800#16
  | .reservedExt100 _ => 0xF000#16
  | .reservedExt110 _ => 0xF800#16
  | .reservedExt111 _ => 0xFC00#16
  | .drop => 0x2E30#16
  | .swap => 0x2E40#16
  | .over => 0x2E50#16
  | .dup => 0x3450#16
  | .nip => 0x3430#16
  | .jump => 0x6031#16
  | .call => 0x6171#16
  | .ret => 0x6380#16
  | .loadcp _ => 0xF400#16

/-- The word of the instruction agrees with its row: the fixed bits are those of `match`, the unused bits are 0 (R97: "the
spec's canonical encoding has them 0"). -/
def OpcodeRow.Statement (i : Instr) : Prop :=
  encode i &&& rowMask i = rowMatch i ∧ encode i &&& i.unusedBits = 0#16

/-! ## The formats -/

/-- The opcode bits of a word: the high part, the rest masked off. -/
theorem mask_high {m n : Nat} (h : m + n = 16) (a : BitVec m) (b : BitVec n) :
    ((a ++ b).cast h : Ins) &&& (BitVec.allOnes m ++ 0#n).cast h = (a ++ 0#n).cast h := by
  ext i hi
  simp only [BitVec.getElem_cast, BitVec.getElem_and, BitVec.getElem_append]
  split <;> simp

/-- Three opcode bits. -/
theorem mask_high3 (a : BitVec 3) (b : BitVec 13) : (a ++ b : Ins) &&& 0xE000#16 = a ++ 0#13 :=
  mask_high (m := 3) (n := 13) rfl a b

/-- Six opcode bits. -/
theorem mask_high6 (a : BitVec 6) (b : BitVec 10) : (a ++ b : Ins) &&& 0xFC00#16 = a ++ 0#10 :=
  mask_high (m := 6) (n := 10) rfl a b

/-- The opcode bits of formats M and CB. -/
theorem mask_formatM (op : BitVec 3) (offset : BitVec 13) (flag : Bool) :
    formatM op offset flag &&& 0xE000#16 = op ++ 0#13 := by
  rw [← mask_high3 op (offset.extractLsb' 1 12 ++ BitVec.ofBool flag), formatM, BitVec.append_assoc]
  rfl

/-- The opcode bits of formats EF and EL. -/
theorem mask_formatE (ext : BitVec 3) (operand : BitVec 10) :
    formatE ext operand &&& 0xFC00#16 = 0b111#3 ++ ext ++ 0#10 :=
  mask_high6 _ operand

/-! ## One lemma per constructor -/

theorem OpcodeRow.branch (a : BitVec 13) : OpcodeRow.Statement (.branch a) :=
  ⟨(mask_high3 _ a).trans rfl, BitVec.and_zero⟩

theorem OpcodeRow.add (m : StackMove) (x2y : Bool) : OpcodeRow.Statement (.add m x2y) := by
  cases m <;> cases x2y <;> exact ⟨by decide, by decide⟩

theorem OpcodeRow.sub (m : StackMove) (x2y : Bool) : OpcodeRow.Statement (.sub m x2y) := by
  cases m <;> cases x2y <;> exact ⟨by decide, by decide⟩

theorem OpcodeRow.not (m : StackMove) (x2y : Bool) : OpcodeRow.Statement (.not m x2y) := by
  cases m <;> cases x2y <;> exact ⟨by decide, by decide⟩

theorem OpcodeRow.and (m : StackMove) (x2y : Bool) : OpcodeRow.Statement (.and m x2y) := by
  cases m <;> cases x2y <;> exact ⟨by decide, by decide⟩

theorem OpcodeRow.or (m : StackMove) (x2y : Bool) : OpcodeRow.Statement (.or m x2y) := by
  cases m <;> cases x2y <;> exact ⟨by decide, by decide⟩

theorem OpcodeRow.xor (m : StackMove) (x2y : Bool) : OpcodeRow.Statement (.xor m x2y) := by
  cases m <;> cases x2y <;> exact ⟨by decide, by decide⟩

theorem OpcodeRow.cmp (m : StackMove) (x2y : Bool) (sel : Selector) : OpcodeRow.Statement (.cmp m x2y sel) := by
  obtain ⟨ci, ce, cl⟩ := sel
  cases m <;> cases x2y <;> cases ci <;> cases ce <;> cases cl <;> exact ⟨by decide, by decide⟩

theorem OpcodeRow.y (m : StackMove) (x2y : Bool) : OpcodeRow.Statement (.y m x2y) := by
  cases m <;> cases x2y <;> exact ⟨by decide, by decide⟩

theorem OpcodeRow.shr (m : StackMove) (x2y xt : Bool) : OpcodeRow.Statement (.shr m x2y xt) := by
  cases m <;> cases x2y <;> cases xt <;> exact ⟨by decide, by decide⟩

theorem OpcodeRow.shl (m : StackMove) (x2y : Bool) (k : BitVec 4) : OpcodeRow.Statement (.shl m x2y k) := by
  cases m <;> cases x2y <;> revert k <;> unfold OpcodeRow.Statement <;> decide

theorem OpcodeRow.inc (m : StackMove) (x2y : Bool) (k : BitVec 4) : OpcodeRow.Statement (.inc m x2y k) := by
  cases m <;> cases x2y <;> revert k <;> unfold OpcodeRow.Statement <;> decide

theorem OpcodeRow.dec (m : StackMove) (x2y : Bool) (k : BitVec 4) : OpcodeRow.Statement (.dec m x2y k) := by
  cases m <;> cases x2y <;> revert k <;> unfold OpcodeRow.Statement <;> decide

theorem OpcodeRow.cmpu (m : StackMove) (x2y : Bool) (sel : Selector) : OpcodeRow.Statement (.cmpu m x2y sel) := by
  obtain ⟨ci, ce, cl⟩ := sel
  cases m <;> cases x2y <;> cases ci <;> cases ce <;> cases cl <;> exact ⟨by decide, by decide⟩

theorem OpcodeRow.bplc (m : StackMove) (x2y : Bool) : OpcodeRow.Statement (.bplc m x2y) := by
  cases m <;> cases x2y <;> exact ⟨by decide, by decide⟩

theorem OpcodeRow.brot (m : StackMove) (x2y : Bool) : OpcodeRow.Statement (.brot m x2y) := by
  cases m <;> cases x2y <;> exact ⟨by decide, by decide⟩

theorem OpcodeRow.bsel (m : StackMove) (x2y : Bool) : OpcodeRow.Statement (.bsel m x2y) := by
  cases m <;> cases x2y <;> exact ⟨by decide, by decide⟩

theorem OpcodeRow.store (a : BitVec 13) (b : Base) : OpcodeRow.Statement (.store a b) :=
  ⟨(mask_formatM _ a _).trans rfl, BitVec.and_zero⟩

theorem OpcodeRow.xfer (rs : StackMove) (r2p p2r : Bool) (m : StackMove) (x2p : Bool) :
    OpcodeRow.Statement (.xfer rs r2p p2r m x2p) := by
  cases rs <;> cases r2p <;> cases p2r <;> cases m <;> cases x2p <;> exact ⟨by decide, by decide⟩

theorem OpcodeRow.load (a : BitVec 13) (b : Base) : OpcodeRow.Statement (.load a b) :=
  ⟨(mask_formatM _ a _).trans rfl, BitVec.and_zero⟩

theorem OpcodeRow.cbranch (a : BitVec 13) (b : Bool) : OpcodeRow.Statement (.cbranch a b) :=
  ⟨(mask_formatM _ a _).trans rfl, BitVec.and_zero⟩

theorem OpcodeRow.loadc (a : BitVec 13) : OpcodeRow.Statement (.loadc a) :=
  ⟨(mask_high3 _ a).trans rfl, BitVec.and_zero⟩

theorem OpcodeRow.loadreg (r : Reg) : OpcodeRow.Statement (.loadreg r) := by
  cases r <;> exact ⟨by decide, by decide⟩

theorem OpcodeRow.storereg (r : Reg) : OpcodeRow.Statement (.storereg r) := by
  cases r <;> exact ⟨by decide, by decide⟩

theorem OpcodeRow.loadi (m : StackMove) (x2y : Bool) : OpcodeRow.Statement (.loadi m x2y) := by
  cases m <;> cases x2y <;> exact ⟨by decide, by decide⟩

theorem OpcodeRow.storei (m : StackMove) (x2y : Bool) (k : BitVec 4) : OpcodeRow.Statement (.storei m x2y k) := by
  cases m <;> cases x2y <;> revert k <;> unfold OpcodeRow.Statement <;> decide

theorem OpcodeRow.fpadj (a : BitVec 10) : OpcodeRow.Statement (.fpadj a) :=
  ⟨(mask_formatE _ a).trans rfl, BitVec.and_zero⟩

theorem OpcodeRow.loadrel (a : BitVec 10) : OpcodeRow.Statement (.loadrel a) :=
  ⟨(mask_formatE _ a).trans rfl, BitVec.and_zero⟩

theorem OpcodeRow.reservedExt010 (a : BitVec 10) : OpcodeRow.Statement (.reservedExt010 a) :=
  ⟨(mask_formatE _ a).trans rfl, BitVec.and_zero⟩

theorem OpcodeRow.reservedExt100 (a : BitVec 10) : OpcodeRow.Statement (.reservedExt100 a) :=
  ⟨(mask_formatE _ a).trans rfl, BitVec.and_zero⟩

theorem OpcodeRow.reservedExt110 (a : BitVec 10) : OpcodeRow.Statement (.reservedExt110 a) :=
  ⟨(mask_formatE _ a).trans rfl, BitVec.and_zero⟩

theorem OpcodeRow.reservedExt111 (a : BitVec 10) : OpcodeRow.Statement (.reservedExt111 a) :=
  ⟨(mask_formatE _ a).trans rfl, BitVec.and_zero⟩

theorem OpcodeRow.drop : OpcodeRow.Statement .drop := ⟨by decide, by decide⟩

theorem OpcodeRow.swap : OpcodeRow.Statement .swap := ⟨by decide, by decide⟩

theorem OpcodeRow.over : OpcodeRow.Statement .over := ⟨by decide, by decide⟩

theorem OpcodeRow.dup : OpcodeRow.Statement .dup := ⟨by decide, by decide⟩

theorem OpcodeRow.nip : OpcodeRow.Statement .nip := ⟨by decide, by decide⟩

theorem OpcodeRow.jump : OpcodeRow.Statement .jump := ⟨by decide, by decide⟩

theorem OpcodeRow.call : OpcodeRow.Statement .call := ⟨by decide, by decide⟩

theorem OpcodeRow.ret : OpcodeRow.Statement .ret := ⟨by decide, by decide⟩

theorem OpcodeRow.loadcp (a : BitVec 10) : OpcodeRow.Statement (.loadcp a) :=
  ⟨(mask_formatE _ a).trans rfl, BitVec.and_zero⟩

end Sys2Proof.Laws
end

