-- ==== Sys2Proof/Laws/Terms.lean ====
section
/-! SUPPORT. The terms of the statements, in the terms of the machine's definitions. -/

namespace Sys2Proof.Claims

open Sys2Proof.Machine

/-! ## Numbers modulo 2^32 -/

theorem word_toNat (v : Word) : word v.toNat = v := by
  simp [word]

theorem word_add_toNat (a b : Word) : word (a.toNat + b.toNat) = a + b := by
  rw [word, BitVec.ofInt_add]; simp

theorem word_sub_toNat (a b : Word) : word (a.toNat - b.toNat) = a - b := by
  rw [word, Int.sub_eq_add_neg, BitVec.ofInt_add, BitVec.ofInt_neg]; simp [BitVec.sub_eq_add_neg]

theorem word_add_toInt (a b : Word) : word (a.toNat + b.toInt) = a + b := by
  rw [word, BitVec.ofInt_add]; simp

theorem word_add_natCast (a : Word) (n : Nat) : word (a.toNat + n) = a + BitVec.ofNat 32 n := by
  rw [word, BitVec.ofInt_add]; simp

theorem word_sub_natCast (a : Word) (n : Nat) : word (a.toNat - n) = a - BitVec.ofNat 32 n := by
  rw [word, Int.sub_eq_add_neg, BitVec.ofInt_add, BitVec.ofInt_neg]; simp [BitVec.sub_eq_add_neg]

theorem sext13_toInt (v : BitVec 13) : (sext13 v).toInt = v.toInt := by
  rw [sext13, BitVec.toInt_signExtend_of_le (by omega)]

theorem sext10_toInt (v : BitVec 10) : (sext10 v).toInt = v.toInt := by
  rw [sext10, BitVec.toInt_signExtend_of_le (by omega)]

theorem zext13_toNat (v : BitVec 13) : (zext13 v).toNat = v.toNat := by
  have := v.isLt
  simp only [zext13, BitVec.toNat_setWidth]
  omega

theorem zext10_toNat (v : BitVec 10) : (zext10 v).toNat = v.toNat := by
  have := v.isLt
  simp only [zext10, BitVec.toNat_setWidth]
  omega

theorem zext4_toNat (v : BitVec 4) : (zext4 v).toNat = v.toNat := by
  have := v.isLt
  simp only [zext4, BitVec.toNat_setWidth]
  omega

/-! ## Addresses -/

theorem aligned_eq (a : Word) : aligned a = wordAddr a := by
  apply BitVec.eq_of_toNat_eq
  have := a.isLt
  rw [wordAddr_toNat, aligned, BitVec.toNat_ofNat]
  omega

theorem localEa_eq (s : State) (off : BitVec 13) (b : Base) : localEa s off b = s.localAddr off b := by
  cases b <;> simp only [localEa, State.localAddr, baseOf, State.baseReg] <;>
    rw [← zext13_toNat, word_add_toNat]

theorem relEa_eq (s : State) (off : BitVec 10) : word (s.pc.toNat + off.toNat) = s.relAddr off := by
  rw [← zext10_toNat, word_add_toNat, State.relAddr]

theorem branchTarget_eq (s : State) (off : BitVec 13) : word (s.pc.toNat + off.toInt) = s.branchTarget off := by
  rw [← sext13_toInt, word_add_toInt, State.branchTarget]

theorem newRp_eq (s : State) (rs : StackMove) : newRp s rs = movedRp s.rp rs := by
  cases rs <;> simp only [newRp, moveNumber, movedRp]
  · simpa using word_toNat s.rp
  · simpa using word_sub_natCast s.rp 4
  · simpa using word_add_natCast s.rp 4

theorem pushAddr_eq (s : State) (rs : StackMove) : pushAddr s rs = s.returnWriteAddr rs := by
  cases h : s.params.discipline <;> simp [pushAddr, State.returnWriteAddr, newRp_eq, h]

theorem popAddr_eq (s : State) (rs : StackMove) : popAddr s rs = s.returnReadAddr rs := by
  cases h : s.params.discipline <;> simp [popAddr, State.returnReadAddr, newRp_eq, h]

/-! ## Bytes and words of memory -/

theorem exists_iff (s : State) (a : Word) : Exists s a ↔ mapped s.params (wordAddr a) = true := by
  unfold Exists State.byteAt
  split_ifs with h <;> simp [h]

theorem not_exists_iff (s : State) (a : Word) : ¬ Exists s a ↔ mapped s.params (wordAddr a) = false := by
  rw [exists_iff, Bool.not_eq_true]

/-- The bytes of a word lie in that word. -/
theorem wordAddr_add {a k : Word} (h : wordAddr a = a) (hk : k.toNat < 4) :
    wordAddr (a + k) = a ∧ (a + k).toNat = a.toNat + k.toNat := by
  have ha := congrArg BitVec.toNat h
  rw [wordAddr_toNat] at ha
  have := a.isLt
  have hadd : (a + k).toNat = a.toNat + k.toNat := by
    rw [BitVec.toNat_add]
    omega
  refine ⟨BitVec.eq_of_toNat_eq ?_, hadd⟩
  rw [wordAddr_toNat, hadd]
  omega

/-- A word is what its four bytes say. -/
theorem append_eq_iff {b3 b2 b1 b0 : Byte} {w : Word} :
    (b3 ++ b2 ++ b1 ++ b0 : BitVec 32) = w ↔
      b3 = w.extractLsb' 24 8 ∧ b2 = w.extractLsb' 16 8 ∧ b1 = w.extractLsb' 8 8 ∧ b0 = w.extractLsb' 0 8 := by
  constructor
  · rintro rfl
    refine ⟨?_, ?_, ?_, ?_⟩ <;> ext i hi <;>
      simp only [BitVec.getElem_extractLsb', BitVec.getLsbD_append] <;>
      (split_ifs <;> first | omega | (rw [← BitVec.getLsbD_eq_getElem]; congr 1; omega))
  · rintro ⟨rfl, rfl, rfl, rfl⟩
    exact bytes_append w

/-- `WordAt` at a word address: the word exists and reads so. -/
theorem wordAt_iff {s : State} {a w : Word} (h : wordAddr a = a) :
    WordAt s a w ↔ mapped s.params a = true ∧ s.mem.readWord a.toNat = w := by
  obtain ⟨h1, n1⟩ := wordAddr_add h (k := 1#32) (by decide)
  obtain ⟨h2, n2⟩ := wordAddr_add h (k := 2#32) (by decide)
  obtain ⟨h3, n3⟩ := wordAddr_add h (k := 3#32) (by decide)
  simp only [WordAt, State.byteAt, h, h1, h2, h3, n1, n2, n3]
  rcases hm : mapped s.params a
  · simp
  · simp only [if_true, Option.some.injEq, true_and]
    rw [Memory.readWord, append_eq_iff]
    rfl

end Sys2Proof.Claims
end

