-- ==== Sys2Proof/Tests/Slice0.lean ====
section
/-! SUPPORT. Tests: ill-formed terms, words written out from the formats, one step per instruction with the values of the
spec's examples, and a witness for the hypotheses of each statement. -/

namespace Sys2Proof.Tests

open Sys2Proof.Machine Sys2Proof.Claims

/-! ## Ill-formed terms -/

theorem test_store_offset_odd : (Instr.store 5#13 .fp).wellFormed = false := by decide
theorem test_load_offset_odd : (Instr.load 1#13 .bp).wellFormed = false := by decide
theorem test_cbranch_offset_odd : (Instr.cbranch 3#13 true).wellFormed = false := by decide
theorem test_branch_offset_odd :
    (Instr.branch 1#13).wellFormed = false ∧ (Instr.branch 1#13).encodable = true := by decide
theorem test_xfer_s1 : (Instr.xfer .s0 false false .s1 false).wellFormed = false := by decide
theorem test_xfer_two_targets : (Instr.xfer .s0 true false .s0 true).wellFormed = false := by decide
theorem test_loadcp_too_far :
    (Instr.loadcp 1023#10).wellFormed = false ∧ (Instr.loadcp 1022#10).wellFormed = true := by decide

/-! ## Words, from the formats and rules of 30_encoding.md and 40_branch.md to 45_registers.md -/

/-- `000 off13` (R81); BRANCH −4 is 0x1FFC (R120). -/
theorem test_decode_branch : decode 0b0001111111111100#16 = .ok (.branch (-4#13)) := rfl
/-- `001 0000 u u X2Y SS xxxx` (R131); ADD.S1.X2Y is 0x2050. -/
theorem test_decode_add : decode 0b0010000001010000#16 = .ok (.add .s1 true) := rfl
theorem test_decode_sub : decode 0b0010001000110000#16 = .ok (.sub .sm1 false) := rfl
theorem test_decode_not : decode 0b0010010000000000#16 = .ok (.not .s0 false) := rfl
theorem test_decode_and : decode 0b0010011000110000#16 = .ok (.and .sm1 false) := rfl
theorem test_decode_or : decode 0b0010100000110000#16 = .ok (.or .sm1 false) := rfl
theorem test_decode_xor : decode 0b0010101000110000#16 = .ok (.xor .sm1 false) := rfl
/-- CMP GT is 0x2C37: ci, ce, cl set (R137). -/
theorem test_decode_cmp : decode 0b0010110000110111#16 = .ok (.cmp .sm1 false ⟨true, true, true⟩) := rfl
/-- Y with S = 0, X2Y = 0: no alias names it (R138). -/
theorem test_decode_y : decode 0b0010111000000000#16 = .ok (.y .s0 false) := rfl
/-- SHR.XT is 0x3080 (R139). -/
theorem test_decode_shr : decode 0b0011000010000000#16 = .ok (.shr .s0 false true) := rfl
theorem test_decode_shl : decode 0b0011001000000010#16 = .ok (.shl .s0 false 2#4) := rfl
theorem test_decode_inc : decode 0b0011010001010011#16 = .ok (.inc .s1 true 3#4) := rfl
theorem test_decode_dec : decode 0b0011011001010011#16 = .ok (.dec .s1 true 3#4) := rfl
/-- CMPU LT is 0x3831 (R143). -/
theorem test_decode_cmpu : decode 0b0011100000110001#16 = .ok (.cmpu .sm1 false ⟨false, false, true⟩) := rfl
theorem test_decode_bplc : decode 0b0011101000110000#16 = .ok (.bplc .sm1 false) := rfl
theorem test_decode_brot : decode 0b0011110000000000#16 = .ok (.brot .s0 false) := rfl
theorem test_decode_bsel : decode 0b0011111000110000#16 = .ok (.bsel .sm1 false) := rfl
/-- STORE.B 1024 is 0x4401 (R190). -/
theorem test_decode_store : decode 0b0100010000000001#16 = .ok (.store 1024#13 .bp) := rfl
/-- `011 uuu RS R2P P2R SS uuu X2P` (R90): XFER.RSM1.P2R.SM1, no alias. -/
theorem test_decode_xfer : decode 0b0110001101110000#16 = .ok (.xfer .sm1 false true .sm1 false) := rfl
/-- LOAD 4 is 0x8004 (R191). -/
theorem test_decode_load : decode 0b1000000000000100#16 = .ok (.load 4#13 .fp) := rfl
/-- CBRANCH 4 is 0xA005 (R121). -/
theorem test_decode_cbranch : decode 0b1010000000000101#16 = .ok (.cbranch 4#13 true) := rfl
/-- LOADC −1 is 0xDFFF (R192). -/
theorem test_decode_loadc : decode 0b1101111111111111#16 = .ok (.loadc (-1#13)) := rfl
theorem test_decode_loadreg : decode 0b1110000000000010#16 = .ok (.loadreg .rp) := rfl
theorem test_decode_storereg : decode 0b1110001000000001#16 = .ok (.storereg .bp) := rfl
/-- LOADI.S1.X2Y is 0xE450 (R193). -/
theorem test_decode_loadi : decode 0b1110010001010000#16 = .ok (.loadi .s1 true) := rfl
/-- STOREI 4 is 0xE634 (R194). -/
theorem test_decode_storei : decode 0b1110011000110100#16 = .ok (.storei .sm1 false 4#4) := rfl
/-- FPADJ −32 is 0xEFE0 (R207). -/
theorem test_decode_fpadj : decode 0b1110111111100000#16 = .ok (.fpadj (-32#10)) := rfl
/-- LOADREL 8 is 0xF408 (R195); LOADCP's word is LOADREL's (R196). -/
theorem test_decode_loadrel : decode 0b1111010000001000#16 = .ok (.loadrel 8#10) := rfl
theorem test_encode_loadcp : encode (.loadcp 8#10) = 0b1111010000001000#16 := by decide
theorem test_decode_reserved_ext :
    decode 0b1110100000000000#16 = .ok (.reservedExt010 0#10) ∧
      decode 0b1111000000000001#16 = .ok (.reservedExt100 1#10) ∧
      decode 0b1111101000000000#16 = .ok (.reservedExt110 512#10) ∧
      decode 0b1111111111111111#16 = .ok (.reservedExt111 1023#10) := ⟨rfl, rfl, rfl, rfl⟩
/-- The eight aliases and their words (R165 to R169, R176 to R178). -/
theorem test_decode_stack_aliases :
    decode 0x2E30#16 = .ok .drop ∧ decode 0x2E40#16 = .ok .swap ∧ decode 0x2E50#16 = .ok .over ∧
      decode 0x3450#16 = .ok .dup ∧ decode 0x3430#16 = .ok .nip := ⟨rfl, rfl, rfl, rfl, rfl⟩
theorem test_decode_transfer_aliases :
    decode 0x6031#16 = .ok .jump ∧ decode 0x6171#16 = .ok .call ∧ decode 0x6380#16 = .ok .ret := ⟨rfl, rfl, rfl⟩
/-- R98 (b) to (e): S = 10, RS = 10, S = 01 in XFER, R2P with X2P, register 3, selector bit 3. -/
theorem test_decode_reserved :
    decode 0x2020#16 = .error .reservedMove ∧ decode 0xE420#16 = .error .reservedMove ∧
      decode 0x6200#16 = .error .reservedMove ∧ decode 0x6010#16 = .error .reservedTransfer ∧
      decode 0x6081#16 = .error .reservedTransfer ∧ decode 0xE003#16 = .error .reservedRegister ∧
      decode 0x2C08#16 = .error .reservedSelector ∧ decodeBytes [0x2E#8] = .error .truncated :=
  ⟨rfl, rfl, rfl, rfl, rfl, rfl, rfl, rfl⟩

/-! ## One step per instruction -/

/-- A small state: code at 0x100, a frame at 0x1000, globals at 0x3000, the return stack at 0x2000, the word 0x1234ABCD at
0x1004. -/
def small (e : List Word) : State :=
  { State.reset with
    pc := 0x100#32, estack := e, fp := 0x1000#32, bp := 0x3000#32, rp := 0x2000#32
    mem := ⟨[(0x1004, 0x12#8), (0x1005, 0x34#8), (0x1006, 0xAB#8), (0x1007, 0xCD#8)]⟩ }

/-- The same with nothing mapped from 0x3000 up and below 0x100. -/
def island (e : List Word) : State :=
  { small e with params := { Config.defaultParams with map := [⟨0x100, 0x2F00⟩] } }

/-- The same with RP elsewhere. -/
def islandRp (rp : Word) (e : List Word) : State := { island e with rp := rp }

/-- The state after a result, if it is a next state. -/
def next? : Result → Option State
  | .next t => some t
  | _ => none

/-- The evaluation stack after an instruction. -/
def stackAfter (i : Instr) (e : List Word) : Option (List Word) := (next? (exec i (small e))).map (·.estack)

/-- PC after an instruction. -/
def pcAfter (i : Instr) (e : List Word) : Option Word := (next? (exec i (small e))).map (·.pc)

/-- A word of memory after an instruction. -/
def wordAfter (i : Instr) (e : List Word) (a : Nat) : Option Word :=
  (next? (exec i (small e))).map (·.mem.readWord a)

/-- R120: at 0x0100 the offset −4 goes to 0x00FC. -/
theorem test_branch : pcAfter (.branch (-4#13)) [] = some 0xFC#32 := by decide
/-- R131: 0xFFFFFFFF + 1 = 0; with S1.X2Y (23 100) becomes (23 100 123). -/
theorem test_add_wraps : stackAfter (.add .sm1 false) [1#32, 0xFFFFFFFF#32] = some [0#32] := by decide
theorem test_add_keeps : stackAfter (.add .s1 true) [100#32, 23#32] = some [123#32, 100#32, 23#32] := by decide
/-- R132: (100 23) SUB gives (77). -/
theorem test_sub : stackAfter (.sub .sm1 false) [23#32, 100#32] = some [77#32] := by decide
/-- R133: NOT of −1 is 0. -/
theorem test_not : stackAfter (.not .s0 false) [0xFFFFFFFF#32] = some [0#32] := by decide
/-- R134 to R136. -/
theorem test_and : stackAfter (.and .sm1 false) [0xFF#32, 0x1234ABCD#32] = some [0xCD#32] := by decide
theorem test_or : stackAfter (.or .sm1 false) [8#32, 0x10#32] = some [0x18#32] := by decide
theorem test_xor : stackAfter (.xor .sm1 false) [0b1010#32, 0xF#32] = some [5#32] := by decide
/-- R137: s(0x80000000) < s(1); R143: not so unsigned. -/
theorem test_cmp_lt : stackAfter (.cmp .sm1 false ⟨false, false, true⟩) [1#32, 0x80000000#32] = some [1#32] := by decide
theorem test_cmpu_lt : stackAfter (.cmpu .sm1 false ⟨false, false, true⟩) [1#32, 0x80000000#32] = some [0#32] := by decide
/-- R143: (1 0xFFFFFFFF) CMPU LT gives 1. -/
theorem test_cmpu_lt_largest :
    stackAfter (.cmpu .sm1 false ⟨false, false, true⟩) [0xFFFFFFFF#32, 1#32] = some [1#32] := by decide
/-- R137: X = Y gives GE. -/
theorem test_cmp_ge : stackAfter (.cmp .sm1 false ⟨true, false, true⟩) [5#32, 5#32] = some [1#32] := by decide
/-- R138: (a b) becomes (a a). -/
theorem test_y : stackAfter (.y .s0 false) [2#32, 1#32] = some [1#32, 1#32] := by decide
/-- R139: 0x80000001 gives 0x40000000, with XT 0xC0000000. -/
theorem test_shr : stackAfter (.shr .s0 false false) [0x80000001#32] = some [0x40000000#32] := by decide
theorem test_shr_xt : stackAfter (.shr .s0 false true) [0x80000001#32] = some [0xC0000000#32] := by decide
/-- R140: 0xC0000001 SHL 2 gives 4; operand 5 shifts by one. -/
theorem test_shl_two : stackAfter (.shl .s0 false 2#4) [0xC0000001#32] = some [4#32] := by decide
theorem test_shl_one : stackAfter (.shl .s0 false 5#4) [5#32] = some [10#32] := by decide
/-- R141, R142. -/
theorem test_inc_wraps : stackAfter (.inc .s0 false 1#4) [0xFFFFFFFF#32] = some [0#32] := by decide
theorem test_dec_keeps : stackAfter (.dec .s1 true 3#4) [10#32] = some [7#32, 10#32] := by decide
/-- R144: (2 0x77) gives 0x00007700. -/
theorem test_bplc : stackAfter (.bplc .sm1 false) [0x77#32, 2#32] = some [0x7700#32] := by decide
/-- R145: 0x1234ABCD gives 0x34ABCD12. -/
theorem test_brot : stackAfter (.brot .s0 false) [0x1234ABCD#32] = some [0x34ABCD12#32] := by decide
/-- R146: byte 0 of 0x1234ABCD is 0x12; 0xFF000000 at position 0 gives 0xFF. -/
theorem test_bsel : stackAfter (.bsel .sm1 false) [0x1234ABCD#32, 0#32] = some [0x12#32] := by decide
theorem test_bsel_unsigned : stackAfter (.bsel .sm1 false) [0xFF000000#32, 4#32] = some [0xFF#32] := by decide
/-- The row S = −1, X2Y = 1 of R27: [X, Y, e2, e3] becomes [r, X, e3]. -/
theorem test_upd_sm1_x2y :
    stackAfter (.add .sm1 true) [1#32, 2#32, 3#32, 4#32] = some [3#32, 1#32, 4#32] := by decide
/-- R190: the low address bits are ignored, the most significant byte comes first; X is removed. -/
theorem test_store_word : wordAfter (.store 1026#13 .bp) [0xA1B2C3D4#32] 0x3400 = some 0xA1B2C3D4#32 := by decide
theorem test_store_pops : stackAfter (.store 4#13 .fp) [1#32, 2#32] = some [2#32] := by decide
/-- R191. -/
theorem test_load : stackAfter (.load 6#13 .fp) [9#32] = some [0x1234ABCD#32, 9#32] := by decide
/-- R121: taken on 7, not taken on 0; the element is removed in both cases. -/
theorem test_cbranch_taken : pcAfter (.cbranch 4#13 true) [7#32] = some 0x104#32 := by decide
theorem test_cbranch_not_taken : stackAfter (.cbranch 4#13 true) [0#32, 5#32] = some [5#32] := by decide
/-- R192: word 0xD000 is −4096. -/
theorem test_loadc : stackAfter (.loadc 0x1000#13) [] = some [0xFFFFF000#32] := by decide
/-- R205, R206. -/
theorem test_loadreg : stackAfter (.loadreg .bp) [] = some [0x3000#32] := by decide
theorem test_storereg : (next? (exec (.storereg .rp) (small [0x2003#32]))).map (·.rp) = some 0x2003#32 := by decide
/-- R193: the address stays as Y with S1.X2Y, its low bits ignored. -/
theorem test_loadi : stackAfter (.loadi .s1 true) [0x1006#32] = some [0x1234ABCD#32, 0x1006#32] := by decide
/-- R194: (0x2000 42) STOREI 4 stores 42 at 0x2000 and leaves 0x2004. -/
theorem test_storei_word : wordAfter (.storei .sm1 false 4#4) [42#32, 0x2000#32] 0x2000 = some 42#32 := by decide
theorem test_storei_stack : stackAfter (.storei .sm1 false 4#4) [42#32, 0x2000#32] = some [0x2004#32] := by decide
/-- R207: 0x1800 − 32 is 0x17E0, so 0x1000 − 32 is 0x0FE0. -/
theorem test_fpadj : (next? (exec (.fpadj (-32#10)) (small []))).map (·.fp) = some 0xFE0#32 := by decide
/-- R195, R196: the offset counts from the instruction itself, here at 0x1000. -/
theorem test_loadrel :
    (next? (exec (.loadrel 4#10) { small [] with pc := 0x1000#32 })).map (·.estack) = some [0x1234ABCD#32] := by decide
theorem test_loadcp :
    (next? (exec (.loadcp 6#10) { small [] with pc := 0x1000#32 })).map (·.estack) = some [0x1234ABCD#32] := by decide
/-- R98 (a): the four reserved EXT classes stop. -/
theorem test_reserved_ext : exec (.reservedExt100 1#10) (small []) = .fault (.reservedEncoding 0xF001#16 0x100#32) := rfl
/-- R165 to R169. -/
theorem test_drop_empties : stackAfter .drop [1#32] = some [] := by decide
theorem test_swap : stackAfter .swap [2#32, 1#32] = some [1#32, 2#32] := by decide
theorem test_over : stackAfter .over [2#32, 1#32] = some [1#32, 2#32, 1#32] := by decide
theorem test_dup : stackAfter .dup [1#32] = some [1#32, 1#32] := by decide
theorem test_nip : stackAfter .nip [3#32, 2#32, 1#32] = some [3#32, 1#32] := by decide
/-- R176. -/
theorem test_jump : pcAfter .jump [0x200#32] = some 0x200#32 := by decide
/-- R177: CALL at 0x0100 with RP = 0x2000 saves 0x0102 at 0x1FFC. -/
theorem test_call_saves : wordAfter .call [0x200#32] 0x1FFC = some 0x102#32 := by decide
theorem test_call_rp : (next? (exec .call (small [0x200#32]))).map (·.rp) = some 0x1FFC#32 := by decide
/-- R178. -/
theorem test_ret :
    (next? (exec .ret { small [] with rp := 0x1004#32, mem := ⟨[(0x1007, 0x42#8)]⟩ })).map (fun t => (t.pc, t.rp)) =
      some (0x42#32, 0x1008#32) := by decide
/-- R175 (d): XFER.P2R with RS0 overwrites the word at RP with PC + 2 and falls through. -/
theorem test_xfer_p2r : wordAfter (.xfer .s0 false true .s0 false) [] 0x2000 = some 0x102#32 := by decide
theorem test_xfer_nothing : exec (.xfer .s0 false false .s0 false) (small []) = .next { small [] with pc := 0x102#32 } :=
  rfl
/-- R175 (c), discipline `empty`: the return address goes to the old RP. -/
theorem test_call_empty :
    (next? (exec .call { small [0x200#32] with
      params := { Config.defaultParams with discipline := .empty } })).map (·.mem.readWord 0x2000) = some 0x102#32 := by
  decide
/-- The first step after reset runs the word placed for it: LOADC 5 is 0xC005. -/
theorem test_step_from_reset :
    (next? (step (State.reset.withFetchWord 16 0xC005))).map (·.estack) = some [5#32] := by decide
theorem test_table_word : decodeTableWord 16 0x6171 = some .call := by decide

/-! ## Witnesses: states and operands that meet the hypotheses of the statements -/

/-- A stack of the greatest depth, and one with room for one more element. -/
def full : List Word := List.replicate 32 7#32
def almostFull : List Word := List.replicate 31 7#32

/-- `small` with an instruction word at PC. -/
def coded (w : Nat) : State := (small [8#32]).withFetchWord 16 w

/-- `small` with every word as the fetch needs it where the program has stored to the word at PC. -/
def storedCode (coherent : Bool) : State :=
  { small [] with written := [0x100], params := { Config.defaultParams with ifetchCoherent := coherent } }

theorem wf_small : (small []).mem.wf = true := by decide
theorem wf_island : (island []).mem.wf = true := by decide

theorem witness_DecodeInvertsEncode :
    (Instr.load 8190#13 .bp).encodable = true ∧ (Instr.load 8190#13 .bp).canonical = true ∧
      (Instr.branch 1#13).encodable = true ∧ (Instr.branch 1#13).canonical = true ∧
      (Instr.xfer .sm1 false true .sm1 false).encodable = true ∧
      (Instr.xfer .sm1 false true .sm1 false).canonical = true := by decide

theorem witness_ReservedWordsAreExactlyR98 :
    (coded 0xE800).fetch = .ok 0xE800#16 ∧ ReservedWord 0xE800#16 ∧ (coded 0x2030).fetch = .ok 0x2030#16 :=
  ⟨rfl, by unfold ReservedWord; decide, rfl⟩

theorem witness_UnusedBitsAreIgnored : decode 0x21BF#16 = .ok (.add .sm1 false) := rfl

theorem witness_BranchFormat : (Instr.branch 4094#13).wellFormed = true := by decide

theorem witness_AluFormat :
    (aluInstrs .s1 true false ⟨false, true, false⟩ 2#4)[(15#4 : BitVec 4).toNat]? = some (.bsel .s1 true) ∧
      (aluInstrs .s0 false true ⟨true, true, true⟩ 15#4)[(12#4 : BitVec 4).toNat]? =
        some (.cmpu .s0 false ⟨true, true, true⟩) := by decide

theorem witness_TransferRegisterAndIndirectFormats : StackMove.sm1 ≠ .s1 ∧ (true = false ∨ false = false) := by decide

theorem witness_DropRemovesTop : (small [1#32]).estack = 1#32 :: [] ∧ (small []).estack = [] := ⟨rfl, rfl⟩

theorem witness_OverCopiesSecond :
    (∃ x y rest, (small almostFull).estack = x :: y :: rest) ∧
      (small almostFull).estack.length < (small almostFull).params.estackDepth ∧
      (small full).params.estackDepth ≤ (small full).estack.length := ⟨⟨_, _, _, rfl⟩, by decide, by decide⟩

theorem witness_StepRunsDecoded : (coded 0x2030).fetch = .ok 0x2030#16 ∧ decode 0x2030#16 = .ok (.add .sm1 false) :=
  ⟨rfl, rfl⟩

theorem witness_LoadedWordIsFetchedNext :
    (small []).mem.wf = true ∧ (small []).pc.getLsbD 0 = false := ⟨wf_small, by decide⟩

/-- The last word of the address space, both halves, and a coherent machine. -/
theorem witness_FetchTakesHalf :
    (0xFFFFFFFC#32 : Word).toNat % 4 = 0 ∧ WordAt (small []) 0xFFFFFFFC#32 0#32 ∧
      (0xFFFFFFFC#32 : Word).toNat ∉ (small []).written ∧ WordAt (small []) 0x1004#32 0x1234ABCD#32 ∧
      (storedCode true).params.ifetchCoherent = true ∧ WordAt (storedCode true) 0x100#32 0#32 :=
  ⟨by decide, ⟨rfl, rfl, rfl, rfl⟩, by decide, ⟨rfl, rfl, rfl, rfl⟩, rfl, ⟨rfl, rfl, rfl, rfl⟩⟩

theorem witness_FetchStops :
    ({ small [] with pc := 1#32 } : State).pc.getLsbD 0 = true ∧
      (¬ Claims.Exists { island [] with pc := 0xFE#32 } (aligned 0xFE#32)) ∧
      Claims.Exists (storedCode false) (aligned 0x100#32) ∧ (storedCode false).params.ifetchCoherent = false ∧
      (aligned (storedCode false).pc).toNat ∈ (storedCode false).written :=
  ⟨by decide, (not_exists_iff _ _).2 (by decide), ⟨_, rfl⟩, rfl, by decide⟩

theorem witness_FetchAfterStore :
    (∃ t, (storedCode false).memWrite 0x103#32 5#32 = .ok t ∧ t.pc.getLsbD 0 = false ∧
      aligned t.pc = aligned 0x103#32 ∧ t.params.ifetchCoherent = false) ∧
    ∃ t, (storedCode true).memWrite 0x103#32 5#32 = .ok t ∧ t.params.ifetchCoherent = true :=
  ⟨⟨_, rfl, by decide, by decide, rfl⟩, _, rfl, rfl⟩

theorem witness_BranchZeroStandsStill : State.reset.Final := rfl

theorem witness_ResetIsGood :
    (⟨[]⟩ : Memory).wf = true ∧ 32 ≤ Config.defaultParams.estackDepth ∧
      Config.defaultParams.resetPc.getLsbD 0 = false := by decide

theorem witness_GoodIsKeptByStep : (coded 0x2050).Good ∧ ∃ t, step (coded 0x2050) = .next t :=
  ⟨⟨by decide, by decide, fun _ h => (List.not_mem_nil h).elim, by decide, by decide, by decide⟩, _, rfl⟩

theorem witness_ParametersNeverChange : ∃ t, step (coded 0xC005) = .next t := ⟨_, rfl⟩

theorem witness_DepthChangesByMovement :
    (∃ t, exec (.add .sm1 false) (small [1#32]) = .next t) ∧ (∃ t, exec (.loadc 5#13) (small almostFull) = .next t) ∧
      ∃ t, exec (.branch 0#13) (small []) = .next t := ⟨⟨_, rfl⟩, ⟨_, rfl⟩, _, rfl⟩

theorem witness_RegistersWrittenOnlyBy :
    (∃ t, exec (.fpadj 4#10) (small []) = .next t ∧ t.fp ≠ (small []).fp) ∧
      (∃ t, exec (.storereg .bp) (small [4#32]) = .next t ∧ t.bp ≠ (small [4#32]).bp) ∧
      ∃ t, exec .call (small [4#32]) = .next t ∧ t.rp ≠ (small [4#32]).rp :=
  ⟨⟨_, rfl, by decide⟩, ⟨_, rfl, by decide⟩, _, rfl, by decide⟩

theorem witness_MemoryWrittenOnlyAtStoreAddress :
    (∃ t, exec (.store 0#13 .bp) (small [4#32]) = .next t ∧ storeAddr (.store 0#13 .bp) (small [4#32]) = some 0x3000#32) ∧
      (∃ t, exec .call (small [4#32]) = .next t ∧ storeAddr .call (small [4#32]) = some 0x1FFC#32) ∧
      ∃ t, exec (.loadi .s0 false) (small [4#32]) = .next t ∧ storeAddr (.loadi .s0 false) (small [4#32]) = none :=
  ⟨⟨_, rfl, by decide⟩, ⟨_, rfl, by decide⟩, _, rfl, rfl⟩

theorem witness_OnlyTransfersLeaveTheSequence : ∃ t, exec .jump (small [0x200#32]) = .next t := ⟨_, rfl⟩

/-- Each cause in turn: no element, nowhere to read, nowhere to write, an odd target. -/
theorem witness_XferFaultOrder :
    (HasElement (islandRp 0x3000#32 [1#32]) .sm1 ∧
      ¬ Claims.Exists (islandRp 0x3000#32 [1#32]) (aligned (popAddr (islandRp 0x3000#32 [1#32]) .sm1))) ∧
    (Claims.Exists (islandRp 0x100#32 []) (aligned (popAddr (islandRp 0x100#32 []) .s1)) ∧
      ¬ Claims.Exists (islandRp 0x100#32 []) (aligned (pushAddr (islandRp 0x100#32 []) .s1))) ∧
    WordAt { small [] with rp := 0x1004#32 } (aligned (popAddr { small [] with rp := 0x1004#32 } .sm1)) 0x1234ABCD#32 ∧
    (0x1234ABCD#32 : Word).getLsbD 0 = true ∧ (small [7#32]).estack = [7#32] ∧ (7#32 : Word).getLsbD 0 = true :=
  ⟨⟨fun _ => by decide, (not_exists_iff _ _).2 (by decide)⟩, ⟨⟨_, rfl⟩, (not_exists_iff _ _).2 (by decide)⟩,
    ⟨rfl, rfl, rfl, rfl⟩, by decide, rfl, by decide⟩

/-- The hypotheses of the statements about a stack of two or more elements, at the greatest depth that leaves room. -/
theorem witness_two_elements :
    (∃ x y rest, (small almostFull).estack = x :: y :: rest) ∧ HasRoom (small almostFull) .s1 ∧
      (∃ x y rest, (small full).estack = x :: y :: rest) ∧ HasRoom (small full) .sm1 ∧
      (small [1#32, 2#32]).estack = 1#32 :: 2#32 :: [] ∧ HasRoom (small [1#32, 2#32]) .s0 :=
  ⟨⟨_, _, _, rfl⟩, fun _ => by decide, ⟨_, _, _, rfl⟩, by simp [HasRoom], rfl, by simp [HasRoom]⟩

theorem witness_ArithmeticResults : (small [1#32, 2#32]).estack = [1#32, 2#32] ∧ HasRoom (small [1#32, 2#32]) .s1 :=
  ⟨rfl, fun _ => by decide⟩
theorem witness_BitwiseResults : (small [1#32, 2#32]).estack = [1#32, 2#32] ∧ HasRoom (small [1#32, 2#32]) .s0 :=
  ⟨rfl, fun _ => by decide⟩
theorem witness_ShiftResults : (small [1#32, 2#32]).estack = [1#32, 2#32] ∧ HasRoom (small [1#32, 2#32]) .sm1 :=
  ⟨rfl, fun _ => by decide⟩
theorem witness_ByteResults : (small [1#32, 3#32]).estack = [1#32, 3#32] ∧ HasRoom (small [1#32, 3#32]) .sm1 :=
  ⟨rfl, fun _ => by decide⟩
theorem witness_CompareResults :
    (small [0x80000000#32, 1#32]).estack = [0x80000000#32, 1#32] ∧ HasRoom (small [0x80000000#32, 1#32]) .s1 :=
  ⟨rfl, fun _ => by decide⟩
theorem witness_OneElementResults : (small [5#32]).estack = [5#32] ∧ HasRoom (small [5#32]) .s1 :=
  ⟨rfl, fun _ => by decide⟩

theorem witness_AluCompletesOnEveryStack :
    Instr.add .s0 true ∈ aluInstrs .s0 true true ⟨true, true, true⟩ 0#4 ∧ HasRoom (small []) .s0 ∧
      HasElement (small []) .s0 ∧ HasRoom (small almostFull) .s1 ∧ HasElement (small [1#32]) .sm1 :=
  ⟨by decide, by simp [HasRoom], by simp [HasElement], fun _ => by decide, fun _ => by decide⟩

theorem witness_StackLimitFaults :
    Instr.bsel .sm1 false ∈ aluInstrs .sm1 false true ⟨true, true, true⟩ 0#4 ∧ (small []).estack = [] ∧
      Instr.not .s1 false ∈ aluInstrs .s1 false true ⟨true, true, true⟩ 0#4 ∧
      (small full).params.estackDepth ≤ (small full).estack.length := by decide

theorem witness_StackAliasEffects :
    (small [1#32]).estack = 1#32 :: [] ∧ (small [2#32, 1#32]).estack = 2#32 :: 1#32 :: [] ∧
      HasRoom (small [2#32, 1#32]) .s1 ∧ HasRoom (small [1#32]) .s1 := ⟨rfl, rfl, fun _ => by decide, fun _ => by decide⟩

theorem witness_BranchAddsOffset :
    (small []).pc.getLsbD 0 = false ∧ (4094#13 : BitVec 13).getLsbD 0 = false ∧
      (0x1000#13 : BitVec 13).getLsbD 0 = false ∧ (4095#13 : BitVec 13).getLsbD 0 = true := by decide

theorem witness_CbranchPopsAndTests : (small [0#32]).estack = 0#32 :: [] ∧ (small []).estack = [] := ⟨rfl, rfl⟩

/-- R2P alone; P2R with X2P, as CALL; nothing at all. -/
theorem witness_XferMovesByItsFields :
    (small []).mem.wf = true ∧
      (WordAt { small [] with rp := 0x1004#32, mem := ⟨[(0x1007, 0x42#8)]⟩ } 0x1004#32 0x42#32 ∧
        aligned (popAddr { small [] with rp := 0x1004#32, mem := ⟨[(0x1007, 0x42#8)]⟩ } .sm1) = 0x1004#32) ∧
      (HasElement (small [0x200#32]) .sm1 ∧
        Claims.Exists (small [0x200#32]) (aligned (pushAddr (small [0x200#32]) .s1)) ∧
        (0x200#32 : Word).getLsbD 0 = false) ∧
      HasElement (small []) .s0 ∧ ((small []).pc + 2#32).getLsbD 0 = false :=
  ⟨wf_small, ⟨⟨rfl, rfl, rfl, rfl⟩, by decide⟩, ⟨fun _ => by decide, ⟨_, rfl⟩, by decide⟩, by simp [HasElement],
    by decide⟩

theorem witness_JumpGoesToX :
    (0xFFFFFFFE#32 : Word).getLsbD 0 = false ∧ (0xFFFFFFFF#32 : Word).getLsbD 0 = true ∧
      (small [0xFFFFFFFF#32]).estack = 0xFFFFFFFF#32 :: [] ∧ (small []).estack = [] := by decide

theorem witness_CallSavesReturnAddress :
    (small [0x200#32]).mem.wf = true ∧ (0x200#32 : Word).getLsbD 0 = false ∧
      Claims.Exists (small [0x200#32]) (aligned (pushAddr (small [0x200#32]) .s1)) := ⟨wf_small, by decide, _, rfl⟩

theorem witness_RetTakesReturnAddress :
    WordAt (small []) (aligned (popAddr (small []) .sm1)) 0#32 ∧ (0#32 : Word).getLsbD 0 = false ∧
      WordAt { small [] with rp := 0x1006#32 } (aligned (popAddr { small [] with rp := 0x1006#32 } .sm1)) 0x1234ABCD#32 ∧
      (0x1234ABCD#32 : Word).getLsbD 0 = true := ⟨⟨rfl, rfl, rfl, rfl⟩, by decide, ⟨rfl, rfl, rfl, rfl⟩, by decide⟩

/-- The subroutine has moved FP and left a result. -/
theorem witness_CallThenRetReturns :
    (small [0x200#32]).mem.wf = true ∧ (small [0x200#32]).pc.getLsbD 0 = false ∧
      ∃ t u : State, exec .call (small [0x200#32]) = .next t ∧ u.rp = t.rp ∧ u.params = t.params ∧ u.estack = [99#32] ∧
        ∀ a, u.byteAt a = t.byteAt a :=
  ⟨wf_small, by decide, _, { State.setFp _ 0xFE0#32 with estack := [99#32] }, rfl, rfl, rfl, rfl, fun _ => rfl⟩

theorem witness_ReadSeesLatestWrite :
    (small []).mem.wf = true ∧ (∃ t, (small []).memWrite 0xFFFFFFFF#32 5#32 = .ok t) ∧
      aligned 0xFFFFFFFC#32 = aligned 0xFFFFFFFF#32 ∧ aligned 0xFFFFFFFB#32 ≠ aligned 0xFFFFFFFF#32 :=
  ⟨wf_small, ⟨_, rfl⟩, by decide, by decide⟩

theorem witness_MemoryPrimitives :
    WordAt (small []) (aligned 0x1007#32) 0x1234ABCD#32 ∧ ¬ Claims.Exists (island []) (aligned 0x3000#32) :=
  ⟨⟨rfl, rfl, rfl, rfl⟩, (not_exists_iff _ _).2 (by decide)⟩

theorem witness_CanonicalMemoriesAreEqual :
    (small []).mem.wf = true ∧ (island []).mem.wf = true ∧ ∀ a, (small []).mem.readByte a = (island []).mem.readByte a :=
  ⟨wf_small, wf_island, fun _ => rfl⟩

theorem witness_LoadcPushesConstant :
    (small almostFull).estack.length < (small almostFull).params.estackDepth ∧
      (small full).params.estackDepth ≤ (small full).estack.length := by decide

theorem witness_LoadsPushWord :
    (small almostFull).estack.length < (small almostFull).params.estackDepth ∧
      WordAt (small almostFull) (aligned (localEa (small almostFull) 6#13 .fp)) 0x1234ABCD#32 ∧
      WordAt (small []) (aligned (word ((small []).pc.toNat + (1023#10 : BitVec 10).toNat))) 0#32 :=
  ⟨by decide, ⟨rfl, rfl, rfl, rfl⟩, rfl, rfl, rfl, rfl⟩

theorem witness_LoadiReadsThroughX :
    HasRoom (small [0x1007#32]) .s1 ∧ WordAt (small [0x1007#32]) (aligned 0x1007#32) 0x1234ABCD#32 ∧
      (small [0x1007#32, 1#32]).estack = 0x1007#32 :: 1#32 :: [] ∧ (small [0x1007#32]).estack = [0x1007#32] :=
  ⟨fun _ => by decide, ⟨rfl, rfl, rfl, rfl⟩, rfl, rfl⟩

theorem witness_StoreWritesLocal :
    (small [1#32]).mem.wf = true ∧ (small [1#32]).estack = 1#32 :: [] ∧
      Claims.Exists (small [1#32]) (aligned (localEa (small [1#32]) 8190#13 .bp)) := ⟨wf_small, rfl, _, rfl⟩

theorem witness_StoreiWritesThroughY :
    (small [42#32, 0xFFFFFFFF#32]).mem.wf = true ∧
      (small [42#32, 0xFFFFFFFF#32]).estack = 42#32 :: 0xFFFFFFFF#32 :: [] ∧
      HasRoom (small [42#32, 0xFFFFFFFF#32]) .s1 ∧ Claims.Exists (small [42#32, 0xFFFFFFFF#32]) (aligned 0xFFFFFFFF#32) :=
  ⟨wf_small, rfl, fun _ => by decide, _, rfl⟩

/-- Just outside the mapped region, on both sides, for every instruction of the statement. -/
theorem witness_UnmappedDataAccessFaults :
    (island []).estack.length < (island []).params.estackDepth ∧
      (¬ Claims.Exists (island []) (aligned (localEa (island []) 0#13 .bp))) ∧
      (¬ Claims.Exists { island [] with pc := 0x2FFE#32 } (aligned (word (0x2FFE + (2#10 : BitVec 10).toNat)))) ∧
      (∃ x rest, (island [1#32]).estack = x :: rest) ∧ HasRoom (island [0xFF#32]) .s1 ∧
      (¬ Claims.Exists (island [0xFF#32]) (aligned 0xFF#32)) ∧
      (island [1#32, 0x3000#32]).estack = 1#32 :: 0x3000#32 :: [] ∧
      ¬ Claims.Exists (island [1#32, 0x3000#32]) (aligned 0x3000#32) :=
  ⟨by decide, (not_exists_iff _ _).2 (by decide), (not_exists_iff _ _).2 (by decide), ⟨_, _, rfl⟩, fun _ => by decide,
    (not_exists_iff _ _).2 (by decide), rfl, (not_exists_iff _ _).2 (by decide)⟩

theorem witness_LoadregPushesRegister :
    (small almostFull).estack.length < (small almostFull).params.estackDepth := by decide

theorem witness_StoreregPopsIntoRegister : (small [0xFFFFFFFF#32]).estack = 0xFFFFFFFF#32 :: [] := rfl

/-- X and Y present; X present and Y absent; the hypotheses on an absent Y are met on a machine that maps every word. -/
theorem witness_AbsentOperandsAreAnyWord :
    (small []).mem.wf = true ∧ HasRoom (small [0x1004#32]) .s0 ∧ HasElement (small [0x1004#32]) .s0 ∧
      WordAt (small [0x1004#32]) (aligned (small [0x1004#32]).x) 0x1234ABCD#32 ∧
      (∀ a, Claims.Exists (small [0x1004#32]) a) ∧ (small [0x200#32]).x.getLsbD 0 = false :=
  ⟨wf_small, (fun _ => by decide), (fun _ => by decide), ⟨rfl, rfl, rfl, rfl⟩,
    fun a => (exists_iff _ _).2 (by
      have := (wordAddr a).isLt
      simp [mapped, small, State.reset, State.start, Config.defaultParams, holdsAddr, this]), by decide⟩

theorem witness_ByteLoadIdiom :
    (small [0x1006#32]).estack = 0x1006#32 :: [] ∧
      (small [0x1006#32]).estack.length < (small [0x1006#32]).params.estackDepth ∧
      (small [0x1006#32]).byteAt 0x1006#32 = some 0xAB#8 := ⟨rfl, by decide, rfl⟩

end Sys2Proof.Tests
end

section
/-! PROOFS. The scope of the model: a step is the meaning of the decoded word, no step changes the parameters, and what
reset leaves. -/

namespace Sys2Proof.Proofs.Scope

open Sys2Proof.Machine Sys2Proof.Claims

/-! ## The step, once -/

/-- Fetch and decode hand the whole step to the meaning of the instruction (R107). -/
theorem step_eq_exec {s : State} {w : Ins} {i : Instr} (hf : s.fetch = .ok w) (hd : decode w = .ok i) :
    step s = exec i s := by
  simp only [step, hf, hd]

/-- A step that does not stop is a fetch, a decode and an instruction, none of which stops. -/
theorem step_eq_next {s t : State} :
    step s = .next t ↔ ∃ w i, s.fetch = .ok w ∧ decode w = .ok i ∧ exec i s = .next t := by
  constructor
  · intro h
    rcases hf : s.fetch with f | w
    · simp [step, hf] at h
    · rcases hd : decode w with e | i
      · simp [step, hf, hd] at h
      · exact ⟨w, i, rfl, hd, (step_eq_exec hf hd).symm.trans h⟩
  · rintro ⟨w, i, hf, hd, h⟩
    exact (step_eq_exec hf hd).trans h

/-! ## Each instruction is a setting of a shared operation -/

section
variable (m rs : StackMove) (x2y xt r2p p2r x2p : Bool) (sel : Selector) (k : BitVec 4) (r : Reg) (b : Base)
  (off : BitVec 13) (rel : BitVec 10) (s : State)

@[simp] theorem exec_add : exec (.add m x2y) s = runAlu (fun x y => x + y) m x2y s := rfl
@[simp] theorem exec_sub : exec (.sub m x2y) s = runAlu (fun x y => y - x) m x2y s := rfl
@[simp] theorem exec_not : exec (.not m x2y) s = runAlu (fun x _ => ~~~x) m x2y s := rfl
@[simp] theorem exec_and : exec (.and m x2y) s = runAlu (fun x y => x &&& y) m x2y s := rfl
@[simp] theorem exec_or : exec (.or m x2y) s = runAlu (fun x y => x ||| y) m x2y s := rfl
@[simp] theorem exec_xor : exec (.xor m x2y) s = runAlu (fun x y => x ^^^ y) m x2y s := rfl
@[simp] theorem exec_cmp : exec (.cmp m x2y sel) s = runAlu (compareSigned sel) m x2y s := rfl
@[simp] theorem exec_y : exec (.y m x2y) s = runAlu (fun _ y => y) m x2y s := rfl
@[simp] theorem exec_shr : exec (.shr m x2y xt) s = runAlu (fun x _ => shiftRight xt x) m x2y s := rfl
@[simp] theorem exec_shl : exec (.shl m x2y k) s = runAlu (fun x _ => shiftLeft k x) m x2y s := rfl
@[simp] theorem exec_inc : exec (.inc m x2y k) s = runAlu (fun x _ => x + zext4 k) m x2y s := rfl
@[simp] theorem exec_dec : exec (.dec m x2y k) s = runAlu (fun x _ => x - zext4 k) m x2y s := rfl
@[simp] theorem exec_cmpu : exec (.cmpu m x2y sel) s = runAlu (compareUnsigned sel) m x2y s := rfl
@[simp] theorem exec_bplc : exec (.bplc m x2y) s = runAlu placeByte m x2y s := rfl
@[simp] theorem exec_brot : exec (.brot m x2y) s = runAlu (fun x _ => rotateByte x) m x2y s := rfl
@[simp] theorem exec_bsel : exec (.bsel m x2y) s = runAlu selectByte m x2y s := rfl

@[simp] theorem exec_drop : exec .drop s = runAlu (fun _ y => y) .sm1 false s := rfl
@[simp] theorem exec_swap : exec .swap s = runAlu (fun _ y => y) .s0 true s := rfl
@[simp] theorem exec_over : exec .over s = runAlu (fun _ y => y) .s1 true s := rfl
@[simp] theorem exec_dup : exec .dup s = runAlu (fun x _ => x + zext4 0#4) .s1 true s := rfl
@[simp] theorem exec_nip : exec .nip s = runAlu (fun x _ => x + zext4 0#4) .sm1 false s := rfl

@[simp] theorem exec_xfer : exec (.xfer rs r2p p2r m x2p) s = runXfer rs r2p p2r m x2p s := rfl
@[simp] theorem exec_jump : exec .jump s = runXfer .s0 false false .sm1 true s := rfl
@[simp] theorem exec_call : exec .call s = runXfer .s1 false true .sm1 true s := rfl
@[simp] theorem exec_ret : exec .ret s = runXfer .sm1 true false .s0 false s := rfl

@[simp] theorem exec_branch : exec (.branch off) s = s.transfer (s.branchTarget off) := rfl
@[simp] theorem exec_load : exec (.load off b) s = loadAndPush (s.localAddr off b) s := rfl
@[simp] theorem exec_loadrel : exec (.loadrel rel) s = loadAndPush (s.relAddr rel) s := rfl
@[simp] theorem exec_loadcp : exec (.loadcp rel) s = loadAndPush (s.relAddr rel) s := rfl
@[simp] theorem exec_loadc : exec (.loadc off) s = s.pushNext (sext13 off) := rfl
@[simp] theorem exec_loadreg : exec (.loadreg r) s = s.pushNext (s.readReg r) := rfl

@[simp] theorem exec_reservedExt010 :
    exec (.reservedExt010 rel) s = reservedWord (encode (.reservedExt010 rel)) s := rfl
@[simp] theorem exec_reservedExt100 :
    exec (.reservedExt100 rel) s = reservedWord (encode (.reservedExt100 rel)) s := rfl
@[simp] theorem exec_reservedExt110 :
    exec (.reservedExt110 rel) s = reservedWord (encode (.reservedExt110 rel)) s := rfl
@[simp] theorem exec_reservedExt111 :
    exec (.reservedExt111 rel) s = reservedWord (encode (.reservedExt111 rel)) s := rfl

end

/-! ## The parameters through the shared operations -/

theorem memWrite_params {s u : State} {a v : Word} (h : s.memWrite a v = .ok u) : u.params = s.params := by
  obtain ⟨-, rfl⟩ := State.memWrite_eq_ok.1 h
  exact State.setWord_params ..

theorem saveReturn_params {s u : State} {rs : StackMove} {p2r : Bool} (h : s.saveReturn rs p2r = .ok u) :
    u.params = s.params := by
  obtain ⟨-, rfl⟩ | ⟨-, -, rfl⟩ := State.saveReturn_eq_ok.1 h
  · rfl
  · exact State.setWord_params ..

theorem transfer_params {s t : State} {target : Word} (h : s.transfer target = .next t) : t.params = s.params := by
  obtain ⟨-, rfl⟩ := State.transfer_eq_next.1 h
  exact State.setPc_params ..

theorem pushNext_params {s t : State} {v : Word} (h : s.pushNext v = .next t) : t.params = s.params := by
  obtain ⟨-, rfl⟩ := State.pushNext_eq_next.1 h
  simp

theorem runAlu_params {f : Word → Word → Word} {m : StackMove} {x2y : Bool} {s t : State}
    (h : runAlu f m x2y s = .next t) : t.params = s.params := by
  obtain ⟨-, rfl⟩ := runAlu_eq_next.1 h
  simp

theorem loadAndPush_params {a : Word} {s t : State} (h : loadAndPush a s = .next t) : t.params = s.params := by
  obtain ⟨-, v, -, rfl⟩ := loadAndPush_eq_next.1 h
  simp

theorem execLoadi_params {m : StackMove} {x2y : Bool} {s t : State} (h : execLoadi m x2y s = .next t) :
    t.params = s.params := by
  obtain ⟨-, v, -, rfl⟩ := execLoadi_eq_next.1 h
  simp

theorem execStore_params {offset : BitVec 13} {b : Base} {s t : State} (h : execStore offset b s = .next t) :
    t.params = s.params := by
  obtain ⟨-, u, hw, rfl⟩ := execStore_eq_next.1 h
  simp [memWrite_params hw]

theorem execStorei_params {m : StackMove} {x2y : Bool} {k : BitVec 4} {s t : State}
    (h : execStorei m x2y k s = .next t) : t.params = s.params := by
  obtain ⟨-, u, hw, rfl⟩ := execStorei_eq_next.1 h
  simp [memWrite_params hw]

theorem execCbranch_params {offset : BitVec 13} {n : Bool} {s t : State} (h : execCbranch offset n s = .next t) :
    t.params = s.params := by
  obtain ⟨-, rfl⟩ := execCbranch_eq_next.1 h
  simp

theorem execStorereg_params {r : Reg} {s t : State} (h : execStorereg r s = .next t) : t.params = s.params := by
  obtain ⟨-, rfl⟩ := execStorereg_eq_next.1 h
  simp

theorem execFpadj_eq_next {c : BitVec 10} {s t : State} :
    execFpadj c s = .next t ↔ t = (s.setFp (s.fp + sext10 c)).advance := by
  simp [execFpadj, eq_comm (a := t)]

theorem execFpadj_params {c : BitVec 10} {s t : State} (h : execFpadj c s = .next t) : t.params = s.params := by
  obtain rfl := execFpadj_eq_next.1 h
  simp

/-- The return-address write is the one part of XFER that is not an update of a register or of the stack. -/
theorem runXfer_params {rs m : StackMove} {r2p p2r x2p : Bool} {s t : State}
    (h : runXfer rs r2p p2r m x2p s = .next t) : t.params = s.params := by
  obtain ⟨-, -, -, target, u, -, hu, -, rfl⟩ := runXfer_eq_next.1 h
  simp [saveReturn_params hu]

theorem reservedWord_ne_next (w : Ins) (s t : State) : reservedWord w s ≠ .next t := by
  simp [reservedWord]

/-! ## The parameters through every instruction -/

/-- One case per shared operation of the meanings: each instruction is a setting of one of them. -/
theorem exec_params {i : Instr} {s t : State} (h : exec i s = .next t) : t.params = s.params := by
  cases i with
  | add | sub | not | and | or | xor | cmp | y | shr | shl | inc | dec | cmpu | bplc | brot | bsel =>
    simp only [exec_add, exec_sub, exec_not, exec_and, exec_or, exec_xor, exec_cmp, exec_y, exec_shr, exec_shl,
      exec_inc, exec_dec, exec_cmpu, exec_bplc, exec_brot, exec_bsel] at h
    exact runAlu_params h
  | drop | swap | dup | nip =>
    simp only [exec_drop, exec_swap, exec_dup, exec_nip] at h
    exact runAlu_params h
  | xfer | jump | call | ret =>
    simp only [exec_xfer, exec_jump, exec_call, exec_ret] at h
    exact runXfer_params h
  | load | loadrel | loadcp =>
    simp only [exec_load, exec_loadrel, exec_loadcp] at h
    exact loadAndPush_params h
  | loadc | loadreg =>
    simp only [exec_loadc, exec_loadreg] at h
    exact pushNext_params h
  | branch =>
    rw [exec_branch] at h
    exact transfer_params h
  | cbranch => exact execCbranch_params h
  | loadi => exact execLoadi_params h
  | store => exact execStore_params h
  | storei => exact execStorei_params h
  | storereg => exact execStorereg_params h
  | fpadj => exact execFpadj_params h
  | reservedExt010 | reservedExt100 | reservedExt110 | reservedExt111 =>
    simp only [exec_reservedExt010, exec_reservedExt100, exec_reservedExt110, exec_reservedExt111] at h
    exact absurd h (reservedWord_ne_next _ s t)
  | _ => -- OVER: `over` is a token of Lean and cannot name a case
    rw [exec_over] at h
    exact runAlu_params h

theorem step_params {s t : State} (h : step s = .next t) : t.params = s.params := by
  obtain ⟨_, _, -, -, hx⟩ := step_eq_next.1 h
  exact exec_params hx

/-- Which words exist depends on the parameters alone (R59). -/
theorem exists_congr_params {s t : State} (h : t.params = s.params) (a : Word) :
    Claims.Exists t a ↔ Claims.Exists s a := by
  rw [exists_iff, exists_iff, h]

/-- Settles O22: every instruction keeps the parameters, and the address map is one of them. -/
theorem parametersNeverChange : Obligations.ParametersNeverChange := by
  intro s t h
  exact ⟨step_params h, exists_congr_params (step_params h)⟩

/-- Settles O12. -/
theorem stepRunsDecoded : Obligations.StepRunsDecoded := by
  intro s w i hf hd
  exact step_eq_exec hf hd

/-! ## Reset -/

@[simp] theorem start_pc (p : Config.Params) (m : Memory) : (State.start p m).pc = p.resetPc := rfl
@[simp] theorem start_estack (p : Config.Params) (m : Memory) : (State.start p m).estack = [] := rfl
@[simp] theorem start_fp (p : Config.Params) (m : Memory) : (State.start p m).fp = 0#32 := rfl
@[simp] theorem start_bp (p : Config.Params) (m : Memory) : (State.start p m).bp = 0#32 := rfl
@[simp] theorem start_rp (p : Config.Params) (m : Memory) : (State.start p m).rp = 0#32 := rfl
@[simp] theorem start_written (p : Config.Params) (m : Memory) : (State.start p m).written = [] := rfl

theorem reset_eq_start : State.reset = State.start Config.defaultParams ⟨[]⟩ := rfl

/-- Settles O19: the fields of `State.start`, and R6's defaults read off `Config.defaultParams`. -/
theorem resetLeaves : Obligations.ResetLeaves := by
  intro p image
  exact ⟨start_pc p image, start_estack p image, State.start_mem p image, start_written p image,
    State.start_params p image, start_fp p image, start_bp p image, start_rp p image, reset_eq_start,
    (start_pc _ _ : State.reset.pc = Config.defaultParams.resetPc), rfl, rfl⟩

end Sys2Proof.Proofs.Scope
end

section
/-! PROOFS. What an instruction that completes can do, said once for all instructions, and from it the rules that hold of
every instruction: the depth, the registers, PC, and the invariant `Good`. -/

namespace Sys2Proof.Proofs.Effects

open Sys2Proof.Machine Sys2Proof.Claims Sys2Proof.Proofs.Scope

/-! ## Everything an instruction can do -/

/-- The store of an instruction, if it has one: nothing, or one word that exists (R57, R60). -/
inductive Stores (s : State) : State → Prop
  | nothing : Stores s s
  | word (a v : Word) (h : mapped s.params (wordAddr a) = true) : Stores s (s.setWord (wordAddr a) v)

/-- The effects of the instructions that complete, one constructor per form of effect: `Completes i s t` when `t` is what
`i` may make of `s`, whatever word its result is. `exec_completes` ties it to `exec`. -/
inductive Completes (i : Instr) (s : State) : State → Prop
  /-- The ALU, LOADI, STOREI: a stack update by a movement field (R27), after the store of STOREI. -/
  | update {u : State} (r : Word) (m : StackMove) (x2y : Bool) (hd : depthChange i = moveNumber m)
      (hm : s.moveFault m = none) (hu : Stores s u) : Completes i s (u.upd r m x2y).advance
  /-- LOAD, LOADREL, LOADCP, LOADC, LOADREG. -/
  | push (v : Word) (hd : depthChange i = 1) (hm : s.moveFault .s1 = none) : Completes i s (s.push v).advance
  /-- STORE. -/
  | pop {u : State} (hd : depthChange i = -1) (hm : s.moveFault .sm1 = none) (hu : Stores s u) :
      Completes i s u.pop.advance
  | storereg (r : Reg) (hi : i = .storereg r) (hm : s.moveFault .sm1 = none) :
      Completes i s (s.writeReg r s.x).pop.advance
  | fpadj (c : BitVec 10) (hi : i = .fpadj c) : Completes i s (s.setFp (s.fp + sext10 c)).advance
  | branch (off : BitVec 13) (hi : i = .branch off) (he : (s.branchTarget off).getLsbD 0 = false) :
      Completes i s (s.setPc (s.branchTarget off))
  | cbranch (off : BitVec 13) (n : Bool) (hi : i = .cbranch off n) (hm : s.moveFault .sm1 = none) :
      Completes i s (s.pop.setPc (if branchTaken n s.x then s.branchTarget off else s.nextPc))
  /-- XFER, JUMP, CALL, RET (R175). -/
  | transfer {u : State} (rs m : StackMove) (r2p p2r x2p : Bool) (target : Word)
      (hi : i.machine = .xfer rs r2p p2r m x2p) (h1 : m ≠ .s1) (hm : s.moveFault m = none) (hu : Stores s u)
      (he : target.getLsbD 0 = false) (hseq : r2p = false → x2p = false → target = s.nextPc) :
      Completes i s (((u.setRp (movedRp s.rp rs)).xferStack m x2p).setPc target)

/-! ## The shared operations complete so -/

theorem stores_of_memWrite {s u : State} {a v : Word} (h : s.memWrite a v = .ok u) : Stores s u := by
  obtain ⟨hmap, rfl⟩ := State.memWrite_eq_ok.1 h
  exact .word a v hmap

theorem stores_of_saveReturn {s u : State} {rs : StackMove} {p2r : Bool} (h : s.saveReturn rs p2r = .ok u) :
    Stores s u := by
  obtain ⟨-, rfl⟩ | ⟨-, hmap, rfl⟩ := State.saveReturn_eq_ok.1 h
  · exact .nothing
  · exact .word _ _ hmap

section
variable {i : Instr} {s t : State} {m : StackMove}

theorem completes_of_runAlu {f : Word → Word → Word} {x2y : Bool} (h : runAlu f m x2y s = .next t)
    (hd : depthChange i = moveNumber m) : Completes i s t := by
  obtain ⟨hm, rfl⟩ := runAlu_eq_next.1 h
  exact .update _ m x2y hd hm .nothing

theorem completes_of_loadAndPush {a : Word} (hd : depthChange i = 1) (h : loadAndPush a s = .next t) :
    Completes i s t := by
  obtain ⟨hm, v, -, rfl⟩ := loadAndPush_eq_next.1 h
  exact .push v hd hm

theorem completes_of_pushNext {v : Word} (hd : depthChange i = 1) (h : s.pushNext v = .next t) : Completes i s t := by
  obtain ⟨hm, rfl⟩ := State.pushNext_eq_next.1 h
  exact .push v hd hm

theorem completes_of_runXfer {rs : StackMove} {r2p p2r x2p : Bool} (hi : i.machine = .xfer rs r2p p2r m x2p)
    (h : runXfer rs r2p p2r m x2p s = .next t) : Completes i s t := by
  obtain ⟨h1, -, hm, target, u, ht, hu, he, rfl⟩ := runXfer_eq_next.1 h
  refine .transfer rs m r2p p2r x2p _ hi h1 hm (stores_of_saveReturn hu) he fun hr hx => ?_
  obtain ⟨-, rfl⟩ | ⟨hr', -⟩ := State.returnTarget_eq_ok.1 ht
  · simp [hx]
  · simp [hr] at hr'

end

/-- Every instruction that completes has one of the effects. -/
theorem exec_completes {i : Instr} {s t : State} (h : exec i s = .next t) : Completes i s t := by
  cases i with
  | add | sub | not | and | or | xor | cmp | y | shr | shl | inc | dec | cmpu | bplc | brot | bsel =>
    simp only [exec_add, exec_sub, exec_not, exec_and, exec_or, exec_xor, exec_cmp, exec_y, exec_shr, exec_shl,
      exec_inc, exec_dec, exec_cmpu, exec_bplc, exec_brot, exec_bsel] at h
    exact completes_of_runAlu h rfl
  | drop | swap | dup | nip =>
    simp only [exec_drop, exec_swap, exec_dup, exec_nip] at h
    exact completes_of_runAlu h rfl
  | xfer | jump | call | ret => exact completes_of_runXfer rfl h
  | load | loadrel | loadcp => exact completes_of_loadAndPush rfl h
  | loadc | loadreg => exact completes_of_pushNext rfl h
  | branch off =>
    obtain ⟨he, rfl⟩ := State.transfer_eq_next.1 h
    exact .branch off rfl he
  | cbranch off n =>
    obtain ⟨hm, rfl⟩ := execCbranch_eq_next.1 h
    exact .cbranch off n rfl hm
  | loadi m x2y =>
    obtain ⟨hm, v, -, rfl⟩ := execLoadi_eq_next.1 h
    exact .update v m x2y rfl hm .nothing
  | store =>
    obtain ⟨hm, u, hu, rfl⟩ := execStore_eq_next.1 h
    exact .pop rfl hm (stores_of_memWrite hu)
  | storei m x2y =>
    obtain ⟨hm, u, hu, rfl⟩ := execStorei_eq_next.1 h
    exact .update _ m x2y rfl hm (stores_of_memWrite hu)
  | storereg r =>
    obtain ⟨hm, rfl⟩ := execStorereg_eq_next.1 h
    exact .storereg r rfl hm
  | fpadj c =>
    obtain rfl := execFpadj_eq_next.1 h
    exact .fpadj c rfl
  | reservedExt010 | reservedExt100 | reservedExt110 | reservedExt111 => exact absurd h (reservedWord_ne_next _ s t)
  | _ => -- OVER, which is a token of Lean
    rw [exec_over] at h
    exact completes_of_runAlu h rfl

/-! ## A store changes memory alone -/

section
variable {s u : State}

theorem Stores.frame (h : Stores s u) :
    u.pc = s.pc ∧ u.estack = s.estack ∧ u.fp = s.fp ∧ u.bp = s.bp ∧ u.rp = s.rp ∧ u.params = s.params := by
  cases h <;> exact ⟨rfl, rfl, rfl, rfl, rfl, rfl⟩

theorem Stores.estack_eq (h : Stores s u) : u.estack = s.estack := h.frame.2.1

theorem Stores.wf (h : Stores s u) (hs : s.mem.wf = true) : u.mem.wf = true := by
  cases h with
  | nothing => exact hs
  | word a v => exact State.wf_setWord hs a v

theorem Stores.writtenWf (h : Stores s u) (hs : writtenWf 0 s.written = true) : writtenWf 0 u.written = true := by
  cases h with
  | nothing => exact hs
  | word a v => exact State.writtenWf_setWord hs a v

/-- The word stored to exists, so every word stored to still does. -/
theorem Stores.storedMapped (h : Stores s u) (hs : ∀ a : Word, a.toNat ∈ s.written → mapped s.params a = true) (b : Word)
    (hb : b.toNat ∈ u.written) : mapped s.params b = true := by
  cases h with
  | nothing => exact hs b hb
  | word a v hmap =>
    rw [State.setWord_written, mem_addWritten] at hb
    obtain hb | hb := hb
    · rwa [BitVec.eq_of_toNat_eq hb]
    · exact hs b hb

end

/-- What an instruction leaves in memory is what its store left. -/
theorem Completes.stores {i : Instr} {s t : State} (h : Completes i s t) :
    ∃ u, Stores s u ∧ t.mem = u.mem ∧ t.written = u.written := by
  cases h with
  | update _ _ _ _ _ hu => exact ⟨_, hu, rfl, rfl⟩
  | pop _ _ hu => exact ⟨_, hu, rfl, rfl⟩
  | transfer _ _ _ _ _ _ _ _ _ hu => exact ⟨_, hu, by simp, by simp⟩
  | storereg => exact ⟨s, .nothing, by simp, by simp⟩
  | push | fpadj | branch | cbranch => exact ⟨s, .nothing, rfl, rfl⟩

/-! ## The depth (R27) -/

/-- A movement without a fault changes the depth by its number. -/
theorem movedDepth_cast {s : State} {m : StackMove} (hm : s.moveFault m = none) :
    (movedDepth s.estack.length m : Int) = s.estack.length + moveNumber m := by
  cases m with
  | s0 => simp [movedDepth, moveNumber]
  | s1 => simp [movedDepth, moveNumber]
  | sm1 =>
    have := List.length_pos_iff.2 ((State.moveFault_eq_none.1 hm).2 rfl)
    simp only [movedDepth, moveNumber]
    omega

theorem depthChange_machine (i : Instr) : depthChange i.machine = depthChange i := by
  cases i <;> rfl

theorem length_updCells_of_moveFault {s : State} {m : StackMove} (hm : s.moveFault m = none) (r u : Word) (x2y : Bool) :
    (updCells r u m x2y s.estack).length = movedDepth s.estack.length m :=
  length_updCells r u m x2y s.estack (State.moveFault_eq_none.1 hm).2

theorem length_updCells_cast {s : State} {m : StackMove} (hm : s.moveFault m = none) (r u : Word) (x2y : Bool) :
    ((updCells r u m x2y s.estack).length : Int) = s.estack.length + moveNumber m := by
  rw [length_updCells_of_moveFault hm, movedDepth_cast hm]

/-- Every instruction moves the stack by its movement, which had no fault. -/
theorem Completes.moves {i : Instr} {s t : State} (h : Completes i s t) :
    ∃ m, depthChange i = moveNumber m ∧ s.moveFault m = none ∧ t.estack.length = movedDepth s.estack.length m := by
  cases h with
  | @update u r m x2y hd hm hu =>
    exact ⟨m, hd, hm, by simp [hu.estack_eq, length_updCells_of_moveFault hm]⟩
  | push v hd hm => exact ⟨.s1, hd, hm, rfl⟩
  | pop hd hm hu => exact ⟨.sm1, hd, hm, by simp [hu.estack_eq, movedDepth]⟩
  | storereg r hi hm => exact ⟨.sm1, hi ▸ rfl, hm, by simp [movedDepth]⟩
  | cbranch off n hi hm => exact ⟨.sm1, hi ▸ rfl, hm, by simp [movedDepth]⟩
  | fpadj c hi => exact ⟨.s0, hi ▸ rfl, rfl, rfl⟩
  | branch off hi => exact ⟨.s0, hi ▸ rfl, rfl, rfl⟩
  | transfer rs m r2p p2r x2p target hi h1 hm hu =>
    refine ⟨m, by rw [← depthChange_machine, hi]; rfl, hm, ?_⟩
    cases m <;> simp_all [State.xferStack_estack, hu.estack_eq, movedDepth]

/-- Settles O23, from the movement of each instruction. -/
theorem depthChangesByMovement : Obligations.DepthChangesByMovement := by
  intro i s t h
  obtain ⟨m, hd, hm, hlen⟩ := (exec_completes h).moves
  rw [hlen, hd, movedDepth_cast hm]

/-! ## The registers (R35) -/

theorem machine_eq_xfer {i : Instr} {rs m : StackMove} {r2p p2r x2p : Bool} (h : i.machine = .xfer rs r2p p2r m x2p) :
    i = .xfer rs r2p p2r m x2p ∨ (i = .jump ∧ rs = .s0) ∨ i = .call ∨ i = .ret := by
  cases i <;> simp_all [Instr.machine]

section
variable {i : Instr} {s t : State}

theorem Completes.fp_eq (h : Completes i s t) (hfp : t.fp ≠ s.fp) : i = .storereg .fp ∨ ∃ c, i = .fpadj c := by
  cases h with
  | update _ _ _ _ _ hu | pop _ _ hu | transfer _ _ _ _ _ _ _ _ _ hu => simp [hu.frame] at hfp
  | push | branch | cbranch => simp at hfp
  | storereg r hi => cases r <;> simp_all [State.writeReg_fp]
  | fpadj c hi => exact .inr ⟨c, hi⟩

theorem Completes.bp_eq (h : Completes i s t) (hbp : t.bp ≠ s.bp) : i = .storereg .bp := by
  cases h with
  | update _ _ _ _ _ hu | pop _ _ hu | transfer _ _ _ _ _ _ _ _ _ hu => simp [hu.frame] at hbp
  | push | branch | cbranch | fpadj => simp at hbp
  | storereg r hi => cases r <;> simp_all [State.writeReg_bp]

theorem Completes.rp_eq (h : Completes i s t) (hrp : t.rp ≠ s.rp) :
    i = .storereg .rp ∨ i = .call ∨ i = .ret ∨ ∃ rs r2p p2r m x2p, i = .xfer rs r2p p2r m x2p ∧ rs ≠ .s0 := by
  cases h with
  | update _ _ _ _ _ hu | pop _ _ hu => simp [hu.frame] at hrp
  | push | branch | cbranch | fpadj => simp at hrp
  | storereg r hi => cases r <;> simp_all [State.writeReg_rp]
  | transfer rs m r2p p2r x2p target hi =>
    have hrs : rs ≠ .s0 := by
      rintro rfl
      simp [movedRp] at hrp
    obtain hx | ⟨-, h0⟩ | hc | hr := machine_eq_xfer hi
    · simp [hx, hrs]
    · exact absurd h0 hrs
    · simp [hc]
    · simp [hr]

end

/-- Settles O24, register by register. -/
theorem registersWrittenOnlyBy : Obligations.RegistersWrittenOnlyBy := by
  intro i s t h
  have hc := exec_completes h
  exact ⟨hc.fp_eq, hc.bp_eq, hc.rp_eq⟩

/-! ## PC (R33) -/

/-- Settles O26: every effect but a branch and a transfer with a target ends in `advance`. -/
theorem onlyTransfersLeaveTheSequence : Obligations.OnlyTransfersLeaveTheSequence := by
  intro i s t h
  cases exec_completes h with
  | update _ _ _ _ _ hu | pop _ _ hu => exact .inl (by simp [hu.frame])
  | push | storereg | fpadj => exact .inl (by simp)
  | branch _ hi | cbranch _ _ hi => simp [hi]
  | transfer rs m r2p p2r x2p target hi _ _ _ _ hseq =>
    obtain hx | ⟨hj, -⟩ | hc | hr := machine_eq_xfer hi
    · by_cases hf : r2p = true ∨ x2p = true
      · exact .inr (.inr (.inr (.inr (.inr (.inr ⟨rs, r2p, p2r, m, x2p, hx, hf⟩)))))
      · simp only [not_or, Bool.not_eq_true] at hf
        exact .inl (hseq hf.1 hf.2)
    · simp [hj]
    · simp [hc]
    · simp [hr]

/-! ## An even PC stays even (R33) -/

/-- Bit 0 of a sum has no carry in. -/
theorem getLsbD_zero_add {w : Nat} (a b : BitVec (w + 1)) : (a + b).getLsbD 0 = (a.getLsbD 0 ^^ b.getLsbD 0) := by
  rw [BitVec.getLsbD_add (by omega), BitVec.carry_zero, Bool.xor_false]

theorem getLsbD_zero_sext13 (off : BitVec 13) : (sext13 off).getLsbD 0 = off.getLsbD 0 := by
  rw [sext13, BitVec.getLsbD_signExtend]
  simp only [Nat.zero_lt_succ, decide_true, Bool.true_and, if_true]

/-- Bit 0 of a branch target is that of PC and of the offset together. -/
theorem getLsbD_zero_branchTarget (s : State) (off : BitVec 13) :
    (s.branchTarget off).getLsbD 0 = (s.pc.getLsbD 0 ^^ off.getLsbD 0) := by
  rw [State.branchTarget, getLsbD_zero_add, getLsbD_zero_sext13]

theorem getLsbD_zero_nextPc (s : State) : s.nextPc.getLsbD 0 = s.pc.getLsbD 0 := by
  rw [State.nextPc_eq, getLsbD_zero_add]
  simp

/-- CBRANCH does not check its target: its offset has to be even, which the encoding sees to (R91). -/
theorem Completes.even_pc {i : Instr} {s t : State} (h : Completes i s t) (hi : i.encodable = true)
    (hs : s.pc.getLsbD 0 = false) : t.pc.getLsbD 0 = false := by
  have hnext : s.nextPc.getLsbD 0 = false := (getLsbD_zero_nextPc s).trans hs
  cases h with
  | update _ _ _ _ _ hu | pop _ _ hu => simpa [hu.frame] using hnext
  | push | storereg | fpadj => simpa using hnext
  | branch off _ he => exact he
  | transfer _ _ _ _ _ target _ _ _ _ he => exact he
  | cbranch off n hc =>
    have hoff : off.getLsbD 0 = false := by simpa [hc, Instr.encodable] using hi
    rw [State.setPc_pc]
    split
    · rw [getLsbD_zero_branchTarget, hs, hoff]; rfl
    · exact hnext

/-! ## The decoder answers encodable instructions only -/

theorem evenOffset_even (w : Ins) : (evenOffset w).getLsbD 0 = false := by
  rw [evenOffset, BitVec.getLsbD_append]
  rfl

theorem encodable_named (i : Instr) : i.named.encodable = i.encodable := by
  unfold Instr.named
  split_ifs with h1 h2 h3 h4 h5 h6 h7 h8 <;> simp_all [Instr.encodable]

section
variable {w : Ins} {i : Instr}

theorem encodable_of_decodeCompare {make : Selector → Instr} {operand : BitVec 4}
    (hmake : ∀ sel, (make sel).encodable = true) (h : decodeCompare make operand = .ok i) : i.encodable = true := by
  unfold decodeCompare at h
  split at h
  · cases h
  · cases h; exact hmake _

theorem encodable_of_decodeAlu (h : decodeAlu w = .ok i) : i.encodable = true := by
  unfold decodeAlu at h
  split at h
  · cases h
  · dsimp only at h
    split at h
    case h_7 | h_13 => exact encodable_of_decodeCompare (fun _ => rfl) h -- CMP, CMPU
    all_goals cases h; rfl

theorem encodable_of_decodeXfer (h : decodeXfer w = .ok i) : i.encodable = true := by
  unfold decodeXfer at h
  split at h
  · split at h
    · cases h
    · next hc =>
      cases h
      simpa [Instr.encodable, ← Bool.not_eq_true, imp_iff_not_or] using hc
  · cases h

theorem encodable_of_decodeExt (h : decodeExt w = .ok i) : i.encodable = true := by
  unfold decodeExt at h
  split at h
  · unfold decodeRegister at h
    split at h
    · cases h
    · cases h; split <;> rfl
  · unfold decodeIndirect at h
    split at h
    · cases h
    · cases h; split <;> rfl
  all_goals cases h; rfl

theorem encodable_of_decodeMachine (h : decodeMachine w = .ok i) : i.encodable = true := by
  unfold decodeMachine at h
  split at h
  · cases h; rfl
  · exact encodable_of_decodeAlu h
  · cases h; simp only [Instr.encodable, evenOffset_even, Bool.not_false]
  · exact encodable_of_decodeXfer h
  · cases h; simp only [Instr.encodable, evenOffset_even, Bool.not_false]
  · cases h; simp only [Instr.encodable, evenOffset_even, Bool.not_false]
  · cases h; rfl
  · exact encodable_of_decodeExt h

theorem encodable_of_decode (h : decode w = .ok i) : i.encodable = true := by
  unfold decode at h
  split at h
  · cases h
  · next j hj =>
    cases h
    rw [encodable_named, encodable_of_decodeMachine hj]

end

/-! ## The invariant -/

/-- An encodable instruction keeps `Good`: its store keeps the memory part, its movement the depth, its target PC. -/
theorem exec_keeps_good {i : Instr} {s t : State} (hi : i.encodable = true) (hs : s.Good) (h : exec i s = .next t) :
    t.Good := by
  have hc := exec_completes h
  have hp := exec_params h
  obtain ⟨u, hu, hmem, hwr⟩ := hc.stores
  obtain ⟨m, -, hm, hlen⟩ := hc.moves
  exact {
    mem := hmem ▸ hu.wf hs.mem
    written := hwr ▸ hu.writtenWf hs.written
    storedMapped := fun a ha => hp ▸ hu.storedMapped hs.storedMapped a (hwr ▸ ha)
    depth := by rw [hlen, hp]; exact State.movedDepth_le hm hs.depth
    limit := hp ▸ hs.limit
    evenPc := hc.even_pc hi hs.evenPc }

/-- Settles O21: the decoder answers encodable instructions, and those keep `Good`. -/
theorem goodIsKeptByStep : Obligations.GoodIsKeptByStep := by
  intro s t hs h
  obtain ⟨w, i, -, hd, hx⟩ := step_eq_next.1 h
  exact exec_keeps_good (encodable_of_decode hd) hs hx

/-- A start with nothing stored and an empty stack is good where the image and the parameters are. -/
theorem start_good {p : Config.Params} {image : Memory} (hm : image.wf = true) (hd : 32 ≤ p.estackDepth)
    (hpc : p.resetPc.getLsbD 0 = false) : (State.start p image).Good where
  mem := hm
  written := rfl
  storedMapped := fun _ ha => absurd ha List.not_mem_nil
  depth := Nat.zero_le _
  limit := hd
  evenPc := hpc

/-- Settles O20: `State.reset` is one of the starts. -/
theorem resetIsGood : Obligations.ResetIsGood := by
  refine ⟨?_, fun p image => start_good⟩
  rw [reset_eq_start]
  exact start_good State.wf_reset (by decide) (by decide)

end Sys2Proof.Proofs.Effects
end

section
/-! PROOFS. The stack update against the rows of R27's table, and with it the results of the sixteen ALU functions, on
every stack. -/

namespace Sys2Proof.Proofs.AluResults

open Sys2Proof.Machine Sys2Proof.Claims Sys2Proof.Proofs.Scope Sys2Proof.Proofs.Effects

/-! ## The rows of R27 -/

section
variable (r u x y : Word) (m : StackMove) (x2y : Bool) (rest e : List Word)

theorem updRow_updCells : UpdRow r m x2y x y rest (updCells r u m x2y (x :: y :: rest)) := by
  cases m <;> cases x2y
  case sm1.true => cases rest <;> simp [UpdRow, updCells, movedDepth]
  all_goals simp [UpdRow, updCells, movedDepth]

theorem updRowOne_updCells : UpdRowOne r m x2y x (updCells r u m x2y [x]) := by
  cases m <;> cases x2y <;> simp [UpdRowOne, updCells, movedDepth]

/-- The result is the new top, unless the new stack is empty. -/
theorem updCells_eq_nil_or_head : updCells r u m x2y e = [] ∨ (updCells r u m x2y e).head? = some r := by
  unfold updCells
  cases hd : movedDepth e.length m with
  | zero => exact .inl rfl
  | succ d => cases m <;> cases x2y <;> exact .inr rfl

end

/-! ## The stack checks in the terms of the statements -/

section
variable {s : State} {m : StackMove}

theorem moveFault_none (hr : HasRoom s m) (he : HasElement s m) : s.moveFault m = none :=
  State.moveFault_eq_none.2 ⟨hr, he⟩

theorem moveFault_none_of_cons {x : Word} {rest : List Word} (he : s.estack = x :: rest) (hr : HasRoom s m) :
    s.moveFault m = none :=
  moveFault_none hr fun _ => by simp [he]

theorem moveFault_of_empty (he : s.estack = []) : s.moveFault .sm1 = some (.stackUnderflow 0) := by
  simp [State.moveFault, he]

theorem moveFault_of_full (hf : s.params.estackDepth ≤ s.estack.length) :
    s.moveFault .s1 = some (.stackOverflow s.estack.length) := by
  simp [State.moveFault, hf]

end

/-! ## What an ALU instruction leaves, on every stack -/

section
variable {i : Instr} {f : Word → Word → Word} {s : State} {m : StackMove} {x2y : Bool} {x y : Word} {rest : List Word}

theorem endsWithStack_of_runAlu (hi : exec i s = runAlu f m x2y s) (hm : s.moveFault m = none) :
    EndsWithStack i s (updCells (f s.x s.y) s.undefCell m x2y s.estack) :=
  hi.trans (runAlu_eq_next.2 ⟨hm, rfl⟩)

/-- On a stack of two or more. -/
theorem endsWithUpd_of_runAlu (hi : exec i s = runAlu f m x2y s) (he : s.estack = x :: y :: rest) (hr : HasRoom s m) :
    EndsWithUpd i s (f x y) m x2y x y rest := by
  have h := endsWithStack_of_runAlu hi (moveFault_none_of_cons he hr)
  rw [he, State.x_cons he, State.y_cons he] at h
  exact ⟨_, updRow_updCells .., h⟩

/-- On a stack of one element. -/
theorem endsWithRowOne_of_runAlu (hi : exec i s = runAlu f m x2y s) (he : s.estack = [x]) (hr : HasRoom s m) :
    ∃ e, UpdRowOne (f x s.y) m x2y x e ∧ EndsWithStack i s e := by
  have h := endsWithStack_of_runAlu hi (moveFault_none_of_cons he hr)
  rw [he, State.x_cons he] at h
  exact ⟨_, updRowOne_updCells .., h⟩

end

/-- Each ALU instruction is `runAlu` of a function of its own. -/
theorem exec_of_mem_aluInstrs {i : Instr} {m : StackMove} {x2y xt : Bool} {sel : Selector} {k : BitVec 4}
    (hi : i ∈ aluInstrs m x2y xt sel k) : ∃ f, ∀ s, exec i s = runAlu f m x2y s := by
  simp only [aluInstrs, List.mem_cons, List.not_mem_nil, or_false] at hi
  rcases hi with rfl | rfl | rfl | rfl | rfl | rfl | rfl | rfl | rfl | rfl | rfl | rfl | rfl | rfl | rfl | rfl
  exacts [⟨_, exec_add m x2y⟩, ⟨_, exec_sub m x2y⟩, ⟨_, exec_not m x2y⟩, ⟨_, exec_and m x2y⟩, ⟨_, exec_or m x2y⟩,
    ⟨_, exec_xor m x2y⟩, ⟨_, exec_cmp m x2y sel⟩, ⟨_, exec_y m x2y⟩, ⟨_, exec_shr m x2y xt⟩, ⟨_, exec_shl m x2y k⟩,
    ⟨_, exec_inc m x2y k⟩, ⟨_, exec_dec m x2y k⟩, ⟨_, exec_cmpu m x2y sel⟩, ⟨_, exec_bplc m x2y⟩,
    ⟨_, exec_brot m x2y⟩, ⟨_, exec_bsel m x2y⟩]

/-- Settles O34: `runAlu` stops for its movement alone, and the update has the moved depth. -/
theorem aluCompletesOnEveryStack : Obligations.AluCompletesOnEveryStack := by
  intro s m x2y xt sel k i hi hr he
  obtain ⟨f, hf⟩ := exec_of_mem_aluInstrs hi
  have hm := moveFault_none hr he
  exact ⟨_, endsWithStack_of_runAlu (hf s) hm, length_updCells_cast hm ..⟩

/-! ## The result words in arithmetic -/

theorem word_natCast (n : Nat) : word n = BitVec.ofNat 32 n :=
  BitVec.ofInt_natCast 32 n

theorem add_zext4_eq (x : Word) (k : BitVec 4) : x + zext4 k = word (x.toNat + k.toNat) := by
  rw [← zext4_toNat, word_add_toNat]

theorem sub_zext4_eq (x : Word) (k : BitVec 4) : x - zext4 k = word (x.toNat - k.toNat) := by
  rw [← zext4_toNat, word_sub_toNat]

theorem shiftLeft_eq_word (x : Word) (n : Nat) : x <<< n = word (x.toNat * 2 ^ n) := by
  have hc : (x.toNat * 2 ^ n : Int) = (x.toNat * 2 ^ n : Nat) := by
    push_cast; rfl
  rw [hc, word_natCast]
  apply BitVec.eq_of_toNat_eq
  rw [BitVec.toNat_shiftLeft, Nat.shiftLeft_eq, BitVec.toNat_ofNat]

theorem shiftLeft_eq (k : BitVec 4) (x : Word) :
    shiftLeft k x = word (x.toNat * if k.getLsbD 1 then 4 else 2) := by
  unfold shiftLeft
  split
  · exact shiftLeft_eq_word x 2
  · exact shiftLeft_eq_word x 1

theorem getLsbD_shiftRight_lt (xt : Bool) (x : Word) {b : Nat} (hb : b < 31) :
    (shiftRight xt x).getLsbD b = x.getLsbD (b + 1) := by
  unfold shiftRight
  split
  · rw [BitVec.getLsbD_sshiftRight, Nat.add_comm, if_pos (by omega), decide_eq_false (by omega)]
    rfl
  · rw [BitVec.getLsbD_ushiftRight, Nat.add_comm]

theorem getLsbD_shiftRight_top (xt : Bool) (x : Word) : (shiftRight xt x).getLsbD 31 = (xt && x.getLsbD 31) := by
  cases xt
  · simp [shiftRight]
  · rw [shiftRight, if_pos rfl, BitVec.getLsbD_sshiftRight, if_neg (by omega), BitVec.msb_eq_getLsbD_last]
    rfl

/-- The position bits Y[1:0] as a number. -/
theorem bytePlace_eq (y : Word) : bytePlace y = 8 * (3 - y.toNat % 4) := by
  simp [bytePlace]

/-- A shift by whole bytes is one by a power of 256. -/
theorem two_pow_bytePlace (y : Word) : 2 ^ bytePlace y = 256 ^ (3 - y.toNat % 4) := by
  rw [bytePlace_eq, Nat.pow_mul]

theorem placeByte_eq (x y : Word) : placeByte x y = word (x.toNat % 256 * 256 ^ (3 - y.toNat % 4)) := by
  have hc : (x.toNat % 256 * 256 ^ (3 - y.toNat % 4) : Int) = (x.toNat % 256 * 256 ^ (3 - y.toNat % 4) : Nat) := by
    push_cast; rfl
  rw [hc, word_natCast]
  apply BitVec.eq_of_toNat_eq
  have hb : x.toNat % 256 % 2 ^ 32 = x.toNat % 256 := by omega
  simp only [placeByte, BitVec.toNat_shiftLeft, BitVec.toNat_setWidth, BitVec.extractLsb'_toNat, Nat.shiftRight_zero,
    Nat.shiftLeft_eq, two_pow_bytePlace, BitVec.toNat_ofNat]
  rw [hb]

theorem rotateByte_eq (x : Word) : rotateByte x = word (x.toNat * 256 + x.toNat / 2 ^ 24) := by
  have hc : (x.toNat * 256 + x.toNat / 2 ^ 24 : Int) = (x.toNat * 256 + x.toNat / 16777216 : Nat) := by
    push_cast; rfl
  rw [hc, word_natCast]
  apply BitVec.eq_of_toNat_eq
  have hx := x.isLt
  have hlt : x.toNat / 2 ^ 24 % 2 ^ 8 < 2 ^ 8 := Nat.mod_lt _ (by omega)
  simp only [rotateByte, BitVec.toNat_append, BitVec.extractLsb'_toNat, Nat.shiftRight_eq_div_pow, Nat.pow_zero,
    Nat.div_one, BitVec.toNat_ofNat]
  have hsplit : x.toNat * 256 + x.toNat / 16777216 =
      x.toNat % 16777216 * 256 + x.toNat / 16777216 + 2 ^ 32 * (x.toNat / 16777216) := by omega
  rw [← Nat.shiftLeft_add_eq_or_of_lt hlt, Nat.shiftLeft_eq, hsplit, Nat.add_mul_mod_self_left,
    Nat.mod_eq_of_lt (a := x.toNat / 2 ^ 24) (by omega), Nat.mod_eq_of_lt (b := 2 ^ 32) (by omega)]
  norm_num

theorem selectByte_eq (x y : Word) : selectByte x y = word (x.toNat / 256 ^ (3 - y.toNat % 4) % 256) := by
  have hc : (x.toNat / 256 ^ (3 - y.toNat % 4) % 256 : Int) = (x.toNat / 256 ^ (3 - y.toNat % 4) % 256 : Nat) := by
    push_cast; rfl
  rw [hc, word_natCast]
  apply BitVec.eq_of_toNat_eq
  simp only [selectByte, BitVec.toNat_setWidth, BitVec.extractLsb'_toNat, BitVec.toNat_ushiftRight,
    Nat.shiftRight_eq_div_pow, Nat.pow_zero, Nat.div_one, two_pow_bytePlace, BitVec.toNat_ofNat]

/-! ## The results on two or more elements -/

/-- Settles O28. -/
theorem arithmeticResults : Obligations.ArithmeticResults := by
  intro s x y rest m x2y k he hr
  rw [word_add_toNat, word_sub_toNat, ← add_zext4_eq, ← sub_zext4_eq]
  exact ⟨endsWithUpd_of_runAlu (exec_add ..) he hr, endsWithUpd_of_runAlu (exec_sub ..) he hr,
    endsWithUpd_of_runAlu (exec_inc ..) he hr, endsWithUpd_of_runAlu (exec_dec ..) he hr⟩

/-- Settles O29. -/
theorem bitwiseResults : Obligations.BitwiseResults := by
  intro s x y rest m x2y he hr
  exact ⟨⟨_, fun k hk => by rw [BitVec.getLsbD_not, decide_eq_true hk, Bool.true_and],
      endsWithUpd_of_runAlu (exec_not ..) he hr⟩,
    ⟨_, fun _ _ => BitVec.getLsbD_and, endsWithUpd_of_runAlu (exec_and ..) he hr⟩,
    ⟨_, fun _ _ => BitVec.getLsbD_or, endsWithUpd_of_runAlu (exec_or ..) he hr⟩,
    ⟨_, fun _ _ => BitVec.getLsbD_xor, endsWithUpd_of_runAlu (exec_xor ..) he hr⟩,
    endsWithUpd_of_runAlu (exec_y ..) he hr⟩

/-- Settles O30. -/
theorem shiftResults : Obligations.ShiftResults := by
  intro s x y rest m x2y xt k he hr
  rw [← shiftLeft_eq]
  exact ⟨⟨_, fun _ hb => getLsbD_shiftRight_lt xt x hb, getLsbD_shiftRight_top xt x,
    endsWithUpd_of_runAlu (exec_shr ..) he hr⟩, endsWithUpd_of_runAlu (exec_shl ..) he hr⟩

/-- Settles O31. -/
theorem byteResults : Obligations.ByteResults := by
  intro s x y rest m x2y he hr
  rw [← placeByte_eq, ← rotateByte_eq, ← selectByte_eq]
  exact ⟨endsWithUpd_of_runAlu (exec_bplc ..) he hr, endsWithUpd_of_runAlu (exec_brot ..) he hr,
    endsWithUpd_of_runAlu (exec_bsel ..) he hr⟩

/-! ## Comparisons -/

/-- The truth word of a test that decides `t`. -/
theorem truthWord_spec {b : Bool} {t : Prop} (h : b = true ↔ t) :
    (t → truthWord b = 1#32) ∧ (¬ t → truthWord b = 0#32) := by
  constructor
  · intro ht
    rw [h.2 ht]; rfl
  · intro ht
    rw [Bool.eq_false_iff.2 (mt h.1 ht)]; rfl

section
variable {s : State} {m : StackMove} {x2y : Bool} {x y : Word} {rest : List Word} {ci ce cl : Bool} {t : Prop}

theorem cmpGives_of_test (he : s.estack = x :: y :: rest) (hr : HasRoom s m)
    (ht : selectedTest ⟨ci, ce, cl⟩ (x == y) (y.slt x) = true ↔ t) : CmpGives s m x2y x y rest ci ce cl t :=
  ⟨_, endsWithUpd_of_runAlu (exec_cmp ..) he hr, truthWord_spec ht⟩

theorem cmpuGives_of_test (he : s.estack = x :: y :: rest) (hr : HasRoom s m)
    (ht : selectedTest ⟨ci, ce, cl⟩ (x == y) (y.ult x) = true ↔ t) : CmpuGives s m x2y x y rest ci ce cl t :=
  ⟨_, endsWithUpd_of_runAlu (exec_cmpu ..) he hr, truthWord_spec ht⟩

end

/-- The eight patterns of R88's table, in an order in which `a` and `b` stand for X and Y: `lt` tests "Y below X". -/
theorem selectedTest_patterns {α : Type} [LinearOrder α] {x y : Word} {a b : α} {lt : Bool} (heq : x = y ↔ b = a)
    (hlt : lt = true ↔ b < a) :
    (selectedTest ⟨false, true, false⟩ (x == y) lt = true ↔ x = y) ∧
      (selectedTest ⟨false, false, true⟩ (x == y) lt = true ↔ b < a) ∧
      (selectedTest ⟨true, true, false⟩ (x == y) lt = true ↔ x ≠ y) ∧
      (selectedTest ⟨false, true, true⟩ (x == y) lt = true ↔ b ≤ a) ∧
      (selectedTest ⟨true, false, true⟩ (x == y) lt = true ↔ b ≥ a) ∧
      (selectedTest ⟨true, true, true⟩ (x == y) lt = true ↔ b > a) ∧
      (selectedTest ⟨false, false, false⟩ (x == y) lt = true ↔ False) ∧
      (selectedTest ⟨true, false, false⟩ (x == y) lt = true ↔ True) := by
  refine ⟨?_, ?_, ?_, ?_, ?_, ?_, ?_, ?_⟩
  · simp [selectedTest]
  · simp [selectedTest, hlt]
  · simp [selectedTest]
  · simp [selectedTest, hlt, heq, le_iff_eq_or_lt]
  · rw [ge_iff_le, ← not_lt, ← hlt]
    simp [selectedTest]
  · rw [gt_iff_lt, ← not_le, le_iff_eq_or_lt, ← hlt, ← heq]
    simp [selectedTest]
  · simp [selectedTest]
  · simp [selectedTest]

/-- Settles O32: each pattern of R88 is a test that decides its relation, in the signed order for CMP and in the unsigned
one for CMPU. -/
theorem compareResults : Obligations.CompareResults := by
  intro s x y rest m x2y he hr
  have heqS : x = y ↔ y.toInt = x.toInt := by rw [BitVec.toInt_inj, eq_comm]
  have heqU : x = y ↔ y.toNat = x.toNat := by rw [BitVec.toNat_inj, eq_comm]
  constructor
  · obtain ⟨h1, h2, h3, h4, h5, h6, h7, h8⟩ := selectedTest_patterns heqS BitVec.slt_iff_toInt_lt
    exact ⟨cmpGives_of_test he hr h1, cmpGives_of_test he hr h2, cmpGives_of_test he hr h3, cmpGives_of_test he hr h4,
      cmpGives_of_test he hr h5, cmpGives_of_test he hr h6, cmpGives_of_test he hr h7, cmpGives_of_test he hr h8⟩
  · obtain ⟨h1, h2, h3, h4, h5, h6, h7, h8⟩ := selectedTest_patterns heqU BitVec.ult_iff_lt
    exact ⟨cmpuGives_of_test he hr h1, cmpuGives_of_test he hr h2, cmpuGives_of_test he hr h3,
      cmpuGives_of_test he hr h4, cmpuGives_of_test he hr h5, cmpuGives_of_test he hr h6, cmpuGives_of_test he hr h7,
      cmpuGives_of_test he hr h8⟩

/-! ## The results on one element -/

/-- Settles O33. -/
theorem oneElementResults : Obligations.OneElementResults := by
  intro s x m x2y xt k he hr
  rw [← shiftLeft_eq, ← add_zext4_eq, ← sub_zext4_eq, ← rotateByte_eq]
  obtain ⟨e, hrow, hend⟩ := endsWithRowOne_of_runAlu (exec_shr m x2y xt s) he hr
  exact ⟨endsWithRowOne_of_runAlu (exec_not ..) he hr,
    ⟨_, e, fun _ hb => getLsbD_shiftRight_lt xt x hb, getLsbD_shiftRight_top xt x, hrow, hend⟩,
    endsWithRowOne_of_runAlu (exec_shl ..) he hr, endsWithRowOne_of_runAlu (exec_inc ..) he hr,
    endsWithRowOne_of_runAlu (exec_dec ..) he hr, endsWithRowOne_of_runAlu (exec_brot ..) he hr⟩

end Sys2Proof.Proofs.AluResults
end

section
/-! PROOFS. Where the stack limits stop an instruction, and the instructions that push, pop, transfer control or go
through memory at X or Y, one by one. -/

namespace Sys2Proof.Proofs.PerInstruction

open Sys2Proof.Machine Sys2Proof.Claims Sys2Proof.Proofs.Scope Sys2Proof.Proofs.Effects Sys2Proof.Proofs.AluResults

/-! ## A stack fault is the outcome of the whole instruction (R28, R217) -/

section
variable {s : State} {m : StackMove} {e : Fault}

theorem runAlu_of_moveFault (h : s.moveFault m = some e) (f : Word → Word → Word) (x2y : Bool) :
    runAlu f m x2y s = .fault e := by
  simp only [runAlu, h]

theorem execLoadi_of_moveFault (h : s.moveFault m = some e) (x2y : Bool) : execLoadi m x2y s = .fault e := by
  simp only [execLoadi, h]

theorem execStorei_of_moveFault (h : s.moveFault m = some e) (x2y : Bool) (k : BitVec 4) :
    execStorei m x2y k s = .fault e := by
  simp only [execStorei, h]

theorem pushNext_of_moveFault (h : s.moveFault .s1 = some e) (v : Word) : s.pushNext v = .fault e := by
  simp only [State.pushNext, h]

theorem loadAndPush_of_moveFault (h : s.moveFault .s1 = some e) (a : Word) : loadAndPush a s = .fault e := by
  simp only [loadAndPush, h]

theorem execStore_of_moveFault (h : s.moveFault .sm1 = some e) (off : BitVec 13) (b : Base) :
    execStore off b s = .fault e := by
  simp only [execStore, h]

theorem execStorereg_of_moveFault (h : s.moveFault .sm1 = some e) (r : Reg) : execStorereg r s = .fault e := by
  simp only [execStorereg, h]

/-- The reserved field combinations aside, which stop before the stack. -/
theorem runXfer_of_moveFault (h : s.moveFault m = some e) (h1 : m ≠ .s1) {r2p x2p : Bool} (hc : (r2p && x2p) = false)
    (rs : StackMove) (p2r : Bool) : runXfer rs r2p p2r m x2p s = .fault e := by
  simp [runXfer, h, h1, hc]

/-- The instructions with a movement field and no other check before the stack's. -/
theorem exec_of_moveFault (h : s.moveFault m = some e) {x2y xt : Bool} {sel : Selector} {k : BitVec 4} {i : Instr}
    (hi : i ∈ aluInstrs m x2y xt sel k ∨ i = .loadi m x2y ∨ i = .storei m x2y k) : exec i s = .fault e := by
  rcases hi with hi | rfl | rfl
  · obtain ⟨f, hf⟩ := exec_of_mem_aluInstrs hi
    rw [hf, runAlu_of_moveFault h]
  · exact execLoadi_of_moveFault h x2y
  · exact execStorei_of_moveFault h x2y k

end

/-- Settles O35: each of these instructions asks for the stack fault first, so the fault is its outcome. -/
theorem stackLimitFaults : Obligations.StackLimitFaults := by
  refine ⟨fun s m x2y xt sel k i hi => ⟨?_, ?_⟩, fun s i => ⟨fun hfull hi => ?_, fun hempty hi => ?_⟩⟩
  · rintro rfl he
    exact exec_of_moveFault (moveFault_of_empty he) hi
  · rintro rfl hfull
    exact exec_of_moveFault (moveFault_of_full hfull) hi
  · have h := moveFault_of_full hfull
    rcases hi with ⟨off, b, rfl⟩ | ⟨r, rfl⟩ | ⟨off, rfl⟩ | ⟨off, rfl⟩ | rfl
    · exact loadAndPush_of_moveFault h _
    · exact pushNext_of_moveFault h _
    · exact loadAndPush_of_moveFault h _
    · exact loadAndPush_of_moveFault h _
    · rw [exec_dup, runAlu_of_moveFault h]
  · have h := moveFault_of_empty hempty
    rcases hi with ⟨off, b, rfl⟩ | ⟨r, rfl⟩ | rfl | rfl
    · exact execStore_of_moveFault h off b
    · exact execStorereg_of_moveFault h r
    · rw [exec_call, runXfer_of_moveFault h (by decide) rfl]
    · rw [exec_nip, runAlu_of_moveFault h]

/-! ## DROP and OVER -/

/-- DROP on one element is the row cut to the empty stack, on more it is Y over the rest. -/
theorem endsWithStack_drop {s : State} {x : Word} {rest : List Word} (he : s.estack = x :: rest) :
    EndsWithStack .drop s rest := by
  have hr : HasRoom s .sm1 := by simp [HasRoom]
  cases rest with
  | nil =>
    obtain ⟨_, rfl, h⟩ := endsWithRowOne_of_runAlu (exec_drop s) he hr
    exact h
  | cons y below =>
    obtain ⟨_, rfl, h⟩ := endsWithUpd_of_runAlu (exec_drop s) he hr
    exact h

/-- Settles O37. -/
theorem dropRemovesTop : Obligations.DropRemovesTop := by
  refine ⟨rfl, by decide, fun s => ⟨by rw [exec_drop, exec_y], fun x rest => endsWithStack_drop, fun he => ?_⟩⟩
  rw [exec_drop, runAlu_of_moveFault (moveFault_of_empty he)]

/-- Settles O38. -/
theorem overCopiesSecond : Obligations.OverCopiesSecond := by
  refine ⟨rfl, by decide, fun s => ⟨by rw [exec_over, exec_y], fun x y rest he hlt => ?_, fun hfull => ?_⟩⟩
  · obtain ⟨_, rfl, h⟩ := endsWithUpd_of_runAlu (exec_over s) he fun _ => hlt
    exact h
  · rw [exec_over, runAlu_of_moveFault (moveFault_of_full hfull)]

/-! ## Pushes and pops of registers and constants -/

theorem pushNext_eq {s : State} (hlt : s.estack.length < s.params.estackDepth) (v : Word) :
    s.pushNext v = .next { s with estack := v :: s.estack, pc := s.pc + 2#32 } :=
  State.pushNext_eq_next.2 ⟨moveFault_none (fun _ => hlt) nofun, rfl⟩

theorem sext13_eq (c : BitVec 13) : sext13 c = word c.toInt := by
  rw [← sext13_toInt, word, BitVec.ofInt_toInt]

/-- A word of format B or C is its opcode bits and one 13-bit constant (R81, R92). -/
theorem decode_loadc (c : BitVec 13) : decode (0b110#3 ++ c) = .ok (.loadc c) := by
  simp [decode, decodeMachine, Instr.named]

theorem decode_branch (off : BitVec 13) : decode (0b000#3 ++ off) = .ok (.branch off) := by
  simp [decode, decodeMachine, Instr.named]

/-- Settles O49. -/
theorem loadcPushesConstant : Obligations.LoadcPushesConstant := by
  intro s c
  refine ⟨fun hlt => ?_, fun hfull => ?_, ?_, ?_, decode_loadc c⟩
  · rw [exec_loadc, pushNext_eq hlt, sext13_eq]
  · rw [exec_loadc, pushNext_of_moveFault (moveFault_of_full hfull)]
  · have := BitVec.le_toInt c
    omega
  · have := BitVec.toInt_lt (x := c)
    omega

/-- Settles O55. -/
theorem loadregPushesRegister : Obligations.LoadregPushesRegister := by
  intro s hlt
  exact ⟨pushNext_eq hlt _, pushNext_eq hlt _, pushNext_eq hlt _⟩

theorem exec_storereg_of_cons {s : State} {x : Word} {rest : List Word} (he : s.estack = x :: rest) (r : Reg) :
    exec (.storereg r) s = .next ((s.writeReg r x).setStack rest).advance := by
  refine execStorereg_eq_next.2 ⟨moveFault_none_of_cons he nofun, ?_⟩
  rw [State.pop, State.writeReg_estack, he, State.x_cons he, List.tail_cons]

/-- Settles O56. -/
theorem storeregPopsIntoRegister : Obligations.StoreregPopsIntoRegister := by
  intro s x rest he
  exact ⟨exec_storereg_of_cons he .fp, exec_storereg_of_cons he .bp, exec_storereg_of_cons he .rp⟩

/-! ## BRANCH and JUMP -/

theorem transfer_of_odd {s : State} {target : Word} (h : target.getLsbD 0 = true) :
    s.transfer target = .fault (.oddPC target) := by
  rw [State.transfer, if_pos h]

theorem transfer_of_even {s : State} {target : Word} (h : target.getLsbD 0 = false) :
    s.transfer target = .next { s with pc := target } :=
  State.transfer_eq_next.2 ⟨h, rfl⟩

/-- Settles O39: from an even PC the target is odd just where the offset is. -/
theorem branchAddsOffset : Obligations.BranchAddsOffset := by
  intro s off hpc
  have hbit : (s.branchTarget off).getLsbD 0 = off.getLsbD 0 := by
    rw [getLsbD_zero_branchTarget, hpc, Bool.false_xor]
  rw [exec_branch, branchTarget_eq]
  exact ⟨fun he => transfer_of_even (hbit.trans he), fun ho => transfer_of_odd (hbit.trans ho), decode_branch off⟩

/-- Where there is an X to remove, XFER's stack effect with S = −1 is just that. -/
theorem xferStack_of_cons {s : State} {x : Word} {rest : List Word} (he : s.estack = x :: rest) (x2p : Bool) :
    s.xferStack .sm1 x2p = s.setStack rest := by
  simp [State.xferStack, State.pop, he]

/-- JUMP is the transfer to X of the state without X. -/
theorem exec_jump_of_cons {s : State} {x : Word} {rest : List Word} (he : s.estack = x :: rest) :
    exec .jump s = (s.setStack rest).transfer x := by
  have hm : s.moveFault .sm1 = none := moveFault_none_of_cons he nofun
  have hrp : s.setRp (movedRp s.rp .s0) = s := rfl
  simp [runXfer, hm, State.returnTarget, State.saveReturn, hrp, xferStack_of_cons he, State.x_cons he]

/-- Settles O42. -/
theorem jumpGoesToX : Obligations.JumpGoesToX := by
  refine fun s => ⟨fun x rest he => ?_, fun he => ?_⟩
  · rw [exec_jump_of_cons he]
    exact ⟨transfer_of_even, transfer_of_odd⟩
  · rw [exec_jump, runXfer_of_moveFault (moveFault_of_empty he) (by decide) rfl]

/-! ## Canonical memories -/

/-- An address that does not read as unlisted is not below the first entry. -/
theorem le_of_cellAt_ne {lo a : Nat} {l : List Host.Cell} (h : cellsWf lo l = true) (ha : cellAt l a ≠ unlistedByte) :
    lo ≤ a :=
  not_lt.1 fun hlt => ha (cellAt_of_lt h hlt)

theorem cellsWf_self {lo k : Nat} {b : Byte} {rest : List Host.Cell} (h : cellsWf lo ((k, b) :: rest) = true) :
    cellsWf k ((k, b) :: rest) = true :=
  cellsWf_cons.2 ⟨le_rfl, (cellsWf_cons.1 h).2⟩

theorem cellAt_self (k : Nat) (b : Byte) (rest : List Host.Cell) : cellAt ((k, b) :: rest) k = b :=
  if_pos rfl

theorem cellAt_of_ne {k a : Nat} (h : k ≠ a) (b : Byte) (rest : List Host.Cell) :
    cellAt ((k, b) :: rest) a = cellAt rest a :=
  if_neg h

/-- Lists in the canonical form that read alike agree entry by entry: in each the first entry is the first address that
does not read as unlisted. -/
theorem cells_eq_of_cellAt_eq {lo : Nat} {l l' : List Host.Cell} (h : cellsWf lo l = true) (h' : cellsWf lo l' = true)
    (heq : ∀ a, cellAt l a = cellAt l' a) : l = l' := by
  induction l generalizing lo l' with
  | nil =>
    cases l' with
    | nil => rfl
    | cons c' rest' =>
      obtain ⟨k', b'⟩ := c'
      obtain ⟨-, -, hb', -⟩ := cellsWf_cons.1 h'
      exact absurd ((cellAt_self k' b' rest').symm.trans (heq k').symm) hb'
  | cons c rest ih =>
    obtain ⟨k, b⟩ := c
    obtain ⟨-, -, hb, hrest⟩ := cellsWf_cons.1 h
    have hkb : cellAt l' k = b := (heq k).symm.trans (cellAt_self k b rest)
    cases l' with
    | nil => exact absurd hkb.symm hb
    | cons c' rest' =>
      obtain ⟨k', b'⟩ := c'
      obtain ⟨-, -, hb', hrest'⟩ := cellsWf_cons.1 h'
      have hkb' : cellAt ((k, b) :: rest) k' = b' := (heq k').trans (cellAt_self k' b' rest')
      obtain rfl : k = k' :=
        le_antisymm (le_of_cellAt_ne (cellsWf_self h) (hkb' ▸ hb')) (le_of_cellAt_ne (cellsWf_self h') (hkb ▸ hb))
      obtain rfl : b' = b := (cellAt_self k b' rest').symm.trans hkb
      rw [ih hrest hrest' fun a => ?_]
      by_cases ha : a < k + 1
      · rw [cellAt_of_lt hrest ha, cellAt_of_lt hrest' ha]
      · have hne : k ≠ a := by omega
        rw [← cellAt_of_ne hne b' rest, heq, cellAt_of_ne hne]

/-- Settles O48. -/
theorem canonicalMemoriesAreEqual : Obligations.CanonicalMemoriesAreEqual := by
  intro m n hm hn heq
  exact congrArg Memory.mk (cells_eq_of_cellAt_eq hm hn heq)

/-! ## LOADI and STOREI -/

theorem memRead_of_wordAt {s : State} {a w : Word} (h : WordAt s (aligned a) w) : s.memRead a = .ok w := by
  rw [aligned_eq, wordAt_iff (wordAddr_wordAddr a)] at h
  obtain ⟨hmap, hw⟩ := h
  exact State.memRead_eq_ok.2 ⟨hmap, hw.symm⟩

/-- LOADI reads and updates, on every stack. -/
theorem endsWithStack_loadi {s : State} {w : Word} {m : StackMove} (hm : s.moveFault m = none)
    (hw : WordAt s (aligned s.x) w) (x2y : Bool) :
    EndsWithStack (.loadi m x2y) s (updCells w s.undefCell m x2y s.estack) :=
  execLoadi_eq_next.2 ⟨hm, w, memRead_of_wordAt hw, rfl⟩

/-- Settles O51. -/
theorem loadiReadsThroughX : Obligations.LoadiReadsThroughX := by
  intro s x w m x2y hr hw
  constructor
  · intro y rest he
    have h := endsWithStack_loadi (moveFault_none_of_cons he hr) (State.x_cons he ▸ hw) x2y
    rw [he] at h
    exact ⟨_, updRow_updCells .., h⟩
  · intro he
    have h := endsWithStack_loadi (moveFault_none_of_cons he hr) (State.x_cons he ▸ hw) x2y
    rw [he] at h
    exact ⟨_, updRowOne_updCells .., h⟩

/-- The bytes of a word that was written, at its four addresses. -/
theorem wordAt_setWord {s : State} (hwf : s.mem.wf = true) {a : Word} (hmap : mapped s.params (wordAddr a) = true)
    (v : Word) : WordAt (s.setWord (wordAddr a) v) (wordAddr a) v := by
  rw [wordAt_iff (wordAddr_wordAddr a)]
  exact ⟨hmap, Memory.readWord_writeWord hwf (wordAddr_bound a) v⟩

theorem byteAt_setWord_of_ne {s : State} (hwf : s.mem.wf = true) {a b : Word} (hb : wordAddr b ≠ wordAddr a) (v : Word) :
    (s.setWord (wordAddr a) v).byteAt b = s.byteAt b := by
  have hne : (wordAddr b).toNat ≠ (wordAddr a).toNat := fun h => hb (BitVec.eq_of_toNat_eq h)
  have hout : b.toNat < (wordAddr a).toNat ∨ (wordAddr a).toNat + 3 < b.toNat := by
    rw [wordAddr_toNat, wordAddr_toNat] at hne
    rw [wordAddr_toNat]
    omega
  rw [State.byteAt, State.byteAt, State.setWord_mem, State.setWord_params,
    Memory.readByte_writeWord_of_ne hwf (wordAddr_bound a) v hout]

/-- A write to a word that exists stores it, and only it, for every state with the same memory. -/
theorem storedWord_of_setWord {s t : State} (hwf : s.mem.wf = true) {a v : Word}
    (hmap : mapped s.params (wordAddr a) = true) (hmem : t.mem = (s.setWord (wordAddr a) v).mem)
    (hwr : t.written = (s.setWord (wordAddr a) v).written) (hp : t.params = s.params) :
    StoredWord s t (aligned a) v := by
  have hbyte : ∀ b, t.byteAt b = (s.setWord (wordAddr a) v).byteAt b := fun b => by
    rw [State.byteAt, State.byteAt, hmem, hp, State.setWord_params]
  rw [aligned_eq]
  refine ⟨?_, fun b hb => ?_, fun k => ?_⟩
  · simpa only [WordAt, hbyte] using wordAt_setWord hwf hmap v
  · rw [aligned_eq] at hb
    rw [hbyte, byteAt_setWord_of_ne hwf hb]
  · rw [hwr, State.setWord_written, mem_addWritten]

/-- STOREI stores and updates, on every stack. -/
theorem exec_storei_of_exists {s : State} {m : StackMove} (hwf : s.mem.wf = true) (hm : s.moveFault m = none)
    (hex : Claims.Exists s (aligned s.y)) (x2y : Bool) (k : BitVec 4) :
    ∃ t, exec (.storei m x2y k) s = .next t ∧
      t.estack = updCells (word (s.y.toNat + k.toNat)) s.undefCell m x2y s.estack ∧ t.pc = s.pc + 2#32 ∧
      SameRegisters s t ∧ StoredWord s t (aligned s.y) s.x := by
  rw [exists_iff, aligned_eq, wordAddr_wordAddr] at hex
  have hw : s.memWrite s.y s.x = .ok (s.setWord (wordAddr s.y) s.x) := State.memWrite_eq_ok.2 ⟨hex, rfl⟩
  refine ⟨_, execStorei_eq_next.2 ⟨hm, _, hw, rfl⟩, ?_, rfl, ⟨rfl, rfl, rfl, rfl⟩,
    storedWord_of_setWord hwf hex rfl rfl rfl⟩
  rw [← add_zext4_eq]
  rfl

/-- Settles O53. -/
theorem storeiWritesThroughY : Obligations.StoreiWritesThroughY := by
  intro s x y rest m x2y k hwf he hr hex
  rw [← State.y_cons he] at hex
  obtain ⟨t, hx, hstack, hpc, hregs, hst⟩ := exec_storei_of_exists hwf (moveFault_none_of_cons he hr) hex x2y k
  rw [State.y_cons he, State.x_cons he] at hst
  rw [State.y_cons he, he] at hstack
  exact ⟨t, hx, hstack ▸ updRow_updCells .., hpc, hregs, hst⟩

/-! ## Absent operands -/

/-- XFER with X2P alone goes to the X it reads, and keeps the stack. -/
theorem exec_xfer_x2p {s : State} (rs : StackMove) (he : s.x.getLsbD 0 = false) :
    exec (.xfer rs false false .s0 true) s =
      .next (((s.setRp (movedRp s.rp rs)).xferStack .s0 true).setPc s.x) := by
  rw [exec_xfer, runXfer_eq_next]
  exact ⟨by decide, by decide, rfl, s.nextPc, s, rfl, rfl, he, rfl⟩

/-- Settles O59: with `State.x` and `State.y` for the operands, nothing in the three asks whether they are there. -/
theorem absentOperandsAreAnyWord : Obligations.AbsentOperandsAreAnyWord := by
  intro s m rs x2y k hwf hr he
  have hm := moveFault_none hr he
  refine ⟨fun w hw => ?_, fun hex => ?_, fun hx => ?_⟩
  · exact ⟨_, endsWithStack_loadi hm hw x2y, length_updCells_cast hm .., updCells_eq_nil_or_head ..⟩
  · obtain ⟨t, ht, hstack, hpc, hregs, hst⟩ := exec_storei_of_exists hwf hm hex x2y k
    refine ⟨t, ht, hst, ?_, ?_, hpc, hregs⟩
    · rw [hstack, length_updCells_cast hm]
    · rw [hstack]
      exact updCells_eq_nil_or_head ..
  · refine ⟨_, exec_xfer_x2p rs hx, rfl, ?_, ?_, ?_, ?_, ?_, fun a => ?_, ?_⟩
    · simp [newRp_eq]
    · simp [State.xferStack_estack]
    · simp
    · simp
    · simp
    · simp [State.byteAt]
    · simp

end Sys2Proof.Proofs.PerInstruction
end

section
/-! PROOFS. Memory: what a read, a write, a load and a store do at an address, and that an instruction changes memory only
in the word it stores to. -/

namespace Sys2Proof.Proofs.MemoryAccess

open Sys2Proof.Machine Sys2Proof.Claims Sys2Proof.Proofs.Scope Sys2Proof.Proofs.Effects Sys2Proof.Proofs.AluResults
  Sys2Proof.Proofs.PerInstruction

/-! ## Words that do not exist (R60) -/

theorem exists_aligned_iff (s : State) (a : Word) :
    Claims.Exists s (aligned a) ↔ mapped s.params (wordAddr a) = true := by
  rw [exists_iff, aligned_eq, wordAddr_wordAddr]

section
variable {s : State} {a : Word}

theorem mapped_of_not_exists (h : ¬ Claims.Exists s (aligned a)) : mapped s.params (wordAddr a) = false := by
  rwa [exists_aligned_iff, Bool.not_eq_true] at h

theorem memRead_of_not_exists (h : ¬ Claims.Exists s (aligned a)) :
    s.memRead a = .error (.unmappedAccess .read (aligned a)) :=
  State.memRead_eq_error.2 ⟨mapped_of_not_exists h, by rw [aligned_eq]⟩

theorem memWrite_of_not_exists (h : ¬ Claims.Exists s (aligned a)) (v : Word) :
    s.memWrite a v = .error (.unmappedAccess .write (aligned a)) :=
  State.memWrite_eq_error.2 ⟨mapped_of_not_exists h, by rw [aligned_eq]⟩

theorem memWrite_of_exists (h : Claims.Exists s (aligned a)) (v : Word) :
    s.memWrite a v = .ok (s.setWord (wordAddr a) v) :=
  State.memWrite_eq_ok.2 ⟨(exists_aligned_iff s a).1 h, rfl⟩

end

/-- Settles O47. -/
theorem memoryPrimitives : Obligations.MemoryPrimitives := by
  intro s a v
  exact ⟨fun _ => memRead_of_wordAt, fun h => ⟨memRead_of_not_exists h, memWrite_of_not_exists h v⟩⟩

/-! ## A read after a write (R61) -/

/-- Two words at different word addresses have no byte in common. -/
theorem readWord_setWord_of_ne {s : State} (hwf : s.mem.wf = true) {a b : Word} (hb : wordAddr b ≠ wordAddr a)
    (v : Word) :
    (s.setWord (wordAddr a) v).mem.readWord (wordAddr b).toNat = s.mem.readWord (wordAddr b).toNat := by
  have hne : (wordAddr b).toNat ≠ (wordAddr a).toNat := mt BitVec.eq_of_toNat_eq hb
  refine Memory.readWord_writeWord_of_ne hwf (wordAddr_bound a) v ?_
  rw [wordAddr_toNat, wordAddr_toNat] at hne ⊢
  omega

/-- Settles O46. -/
theorem readSeesLatestWrite : Obligations.ReadSeesLatestWrite := by
  intro s t a v hwf h
  obtain ⟨hmap, rfl⟩ := State.memWrite_eq_ok.1 h
  refine ⟨fun b hb => ?_, fun b hb => ?_⟩
  · apply memRead_of_wordAt
    rw [hb, aligned_eq]
    exact wordAt_setWord hwf hmap v
  · rw [aligned_eq, aligned_eq] at hb
    rw [State.memRead, State.memRead, State.setWord_params, readWord_setWord_of_ne hwf hb]

/-! ## Where an instruction stores (R57) -/

/-- What the instruction that stores to the given address, if to any, leaves in memory. -/
def StoresAt (s t : State) : Option Word → Prop
  | none => t.mem = s.mem ∧ t.written = s.written
  | some a => ∃ v, StoredWord s t (aligned a) v

section
variable {s t u : State} {a v : Word}

/-- A write, then changes outside memory. -/
theorem storesAt_of_memWrite (hwf : s.mem.wf = true) (h : s.memWrite a v = .ok u) (hmem : t.mem = u.mem)
    (hwr : t.written = u.written) (hp : t.params = s.params) : StoresAt s t (some a) := by
  obtain ⟨hmap, rfl⟩ := State.memWrite_eq_ok.1 h
  exact ⟨v, storedWord_of_setWord hwf hmap hmem hwr hp⟩

theorem storesAt_of_runAlu {f : Word → Word → Word} {m : StackMove} {x2y : Bool} (h : runAlu f m x2y s = .next t) :
    StoresAt s t none := by
  obtain ⟨-, rfl⟩ := runAlu_eq_next.1 h
  exact ⟨rfl, rfl⟩

theorem storesAt_of_loadAndPush (h : loadAndPush a s = .next t) : StoresAt s t none := by
  obtain ⟨-, _, -, rfl⟩ := loadAndPush_eq_next.1 h
  exact ⟨rfl, rfl⟩

theorem storesAt_of_pushNext (h : s.pushNext v = .next t) : StoresAt s t none := by
  obtain ⟨-, rfl⟩ := State.pushNext_eq_next.1 h
  exact ⟨rfl, rfl⟩

/-- XFER writes the return stack with P2R only (R175). -/
theorem storesAt_of_runXfer {rs m : StackMove} {r2p p2r x2p : Bool} (hwf : s.mem.wf = true)
    (h : runXfer rs r2p p2r m x2p s = .next t) : StoresAt s t (if p2r then some (pushAddr s rs) else none) := by
  have hp := runXfer_params h
  obtain ⟨-, -, -, target, u, -, hu, -, rfl⟩ := runXfer_eq_next.1 h
  cases p2r with
  | false =>
    obtain rfl : s = u := Except.ok.inj hu
    simp [StoresAt]
  | true =>
    rw [if_pos rfl, pushAddr_eq]
    exact storesAt_of_memWrite hwf hu (by simp) (by simp) hp

end

/-- Every instruction that completes changes memory at the address it stores to, if it stores. -/
theorem exec_storesAt {i : Instr} {s t : State} (hwf : s.mem.wf = true) (h : exec i s = .next t) :
    StoresAt s t (storeAddr i s) := by
  have hp := exec_params h
  cases i with
  | add | sub | not | and | or | xor | cmp | y | shr | shl | inc | dec | cmpu | bplc | brot | bsel =>
    simp only [exec_add, exec_sub, exec_not, exec_and, exec_or, exec_xor, exec_cmp, exec_y, exec_shr, exec_shl,
      exec_inc, exec_dec, exec_cmpu, exec_bplc, exec_brot, exec_bsel] at h
    exact storesAt_of_runAlu h
  | drop | swap | dup | nip =>
    simp only [exec_drop, exec_swap, exec_dup, exec_nip] at h
    exact storesAt_of_runAlu h
  | load | loadrel | loadcp => exact storesAt_of_loadAndPush h
  | loadc | loadreg => exact storesAt_of_pushNext h
  | branch =>
    obtain ⟨-, rfl⟩ := State.transfer_eq_next.1 h
    exact ⟨rfl, rfl⟩
  | cbranch =>
    obtain ⟨-, rfl⟩ := execCbranch_eq_next.1 h
    exact ⟨rfl, rfl⟩
  | loadi =>
    obtain ⟨-, _, -, rfl⟩ := execLoadi_eq_next.1 h
    exact ⟨rfl, rfl⟩
  | storereg =>
    obtain ⟨-, rfl⟩ := execStorereg_eq_next.1 h
    simp [storeAddr, StoresAt]
  | fpadj =>
    obtain rfl := execFpadj_eq_next.1 h
    exact ⟨rfl, rfl⟩
  | store off b =>
    obtain ⟨-, u, hu, rfl⟩ := execStore_eq_next.1 h
    rw [storeAddr, localEa_eq]
    exact storesAt_of_memWrite hwf hu rfl rfl hp
  | storei =>
    obtain ⟨-, u, hu, rfl⟩ := execStorei_eq_next.1 h
    exact storesAt_of_memWrite hwf hu rfl rfl hp
  | xfer rs r2p p2r m x2p =>
    have hx := storesAt_of_runXfer hwf h
    cases p2r <;> exact hx
  | jump | call | ret =>
    simp only [exec_jump, exec_call, exec_ret] at h
    exact storesAt_of_runXfer hwf h
  | reservedExt010 | reservedExt100 | reservedExt110 | reservedExt111 => exact absurd h (reservedWord_ne_next _ s t)
  | _ => -- OVER, which is a token of Lean
    rw [exec_over] at h
    exact storesAt_of_runAlu h

theorem byteAt_congr {s t : State} (hmem : t.mem = s.mem) (hp : t.params = s.params) (b : Word) :
    t.byteAt b = s.byteAt b := by
  rw [State.byteAt, State.byteAt, hmem, hp]

/-- Settles O25: `StoredWord` leaves every other word, and without a store memory is the same data. -/
theorem memoryWrittenOnlyAtStoreAddress : Obligations.MemoryWrittenOnlyAtStoreAddress := by
  intro i s t hwf h
  have hst := exec_storesAt hwf h
  refine ⟨fun a ha => ?_, fun hnone => ?_⟩
  · rw [ha] at hst
    obtain ⟨v, -, hother, -⟩ := hst
    exact hother
  · rw [hnone] at hst
    obtain ⟨hmem, hwr⟩ := hst
    exact ⟨byteAt_congr hmem (exec_params h), hmem, hwr⟩

/-! ## Loads and STORE, where the word exists -/

theorem loadAndPush_of_wordAt {s : State} {a w : Word} (hlt : s.estack.length < s.params.estackDepth)
    (hw : WordAt s (aligned a) w) :
    loadAndPush a s = .next { s with estack := w :: s.estack, pc := s.pc + 2#32 } :=
  loadAndPush_eq_next.2 ⟨moveFault_none (fun _ => hlt) nofun, w, memRead_of_wordAt hw, rfl⟩

/-- Settles O50. -/
theorem loadsPushWord : Obligations.LoadsPushWord := by
  intro s w hlt
  refine ⟨fun off b hw => ?_, fun off hw => ?_⟩
  · rw [localEa_eq] at hw
    exact loadAndPush_of_wordAt hlt hw
  · rw [relEa_eq] at hw
    exact ⟨loadAndPush_of_wordAt hlt hw, loadAndPush_of_wordAt hlt hw⟩

/-- Settles O52. -/
theorem storeWritesLocal : Obligations.StoreWritesLocal := by
  intro s off b x rest hwf he hex
  rw [localEa_eq] at hex ⊢
  have hmap := (exists_aligned_iff _ _).1 hex
  refine ⟨_, execStore_eq_next.2 ⟨moveFault_none_of_cons he nofun, _, memWrite_of_exists hex s.x, rfl⟩, ?_, rfl,
    ⟨rfl, rfl, rfl, rfl⟩, rfl, ?_⟩
  · simp [he]
  · rw [State.x_cons he]
    exact storedWord_of_setWord hwf hmap rfl rfl rfl

/-! ## Loads and stores, where the word does not exist -/

section
variable {s : State} {a : Word} {m : StackMove} (h : ¬ Claims.Exists s (aligned a))
include h

theorem loadAndPush_of_not_exists (hlt : s.estack.length < s.params.estackDepth) :
    loadAndPush a s = .fault (.unmappedAccess .read (aligned a)) := by
  simp only [loadAndPush, moveFault_none (m := .s1) (fun _ => hlt) nofun, memRead_of_not_exists h]

theorem execLoadi_of_not_exists (hm : s.moveFault m = none) (hx : s.x = a) (x2y : Bool) :
    execLoadi m x2y s = .fault (.unmappedAccess .read (aligned a)) := by
  simp only [execLoadi, hm, hx, memRead_of_not_exists h]

theorem execStorei_of_not_exists (hm : s.moveFault m = none) (hy : s.y = a) (x2y : Bool) (k : BitVec 4) :
    execStorei m x2y k s = .fault (.unmappedAccess .write (aligned a)) := by
  simp only [execStorei, hm, hy, memWrite_of_not_exists h]

theorem execStore_of_not_exists (hm : s.moveFault .sm1 = none) {off : BitVec 13} {b : Base}
    (ha : s.localAddr off b = a) : execStore off b s = .fault (.unmappedAccess .write (aligned a)) := by
  simp only [execStore, hm, ha, memWrite_of_not_exists h]

end

/-- Settles O54: with no stack fault, the access decides. -/
theorem unmappedDataAccessFaults : Obligations.UnmappedDataAccessFaults := by
  refine fun s => ⟨fun hlt => ⟨fun off b h => ?_, fun off h => ?_⟩,
    fun x rest he => ⟨fun off b h => ?_, fun m x2y hr h => ?_⟩, fun x y rest he m x2y k hr h => ?_⟩
  · rw [localEa_eq] at h ⊢
    exact loadAndPush_of_not_exists h hlt
  · rw [relEa_eq] at h ⊢
    exact ⟨loadAndPush_of_not_exists h hlt, loadAndPush_of_not_exists h hlt⟩
  · exact execStore_of_not_exists h (moveFault_none_of_cons he nofun) (localEa_eq s off b).symm
  · exact execLoadi_of_not_exists h (moveFault_none_of_cons he hr) (State.x_cons he) x2y
  · exact execStorei_of_not_exists h (moveFault_none_of_cons he hr) (State.y_cons he) x2y k

/-! ## The byte at a byte address (R52, R146) -/

theorem selectByte_eq_extractLsb' (x y : Word) : selectByte x y = (x.extractLsb' (bytePlace y) 8).setWidth 32 :=
  rfl

/-- The byte at position `k` of a word, 0 being the most significant, is the one at `k` past the word's address (R52). -/
theorem extractLsb'_readWord (m : Memory) (n : Nat) {k : Nat} (hk : k < 4) :
    (m.readWord n).extractLsb' (8 * (3 - k)) 8 = m.readByte (n + k) := by
  obtain ⟨h0, h1, h2, h3⟩ := append_eq_iff.1 (Eq.refl (m.readWord n))
  interval_cases k
  exacts [h0.symm, h1.symm, h2.symm, h3.symm]

/-- BSEL by a byte address takes that byte out of the word that holds it. -/
theorem selectByte_readWord (m : Memory) (a : Word) :
    selectByte (m.readWord (wordAddr a).toNat) a = (m.readByte a.toNat).setWidth 32 := by
  rw [selectByte_eq_extractLsb', bytePlace_eq, extractLsb'_readWord m _ (Nat.mod_lt _ (by decide)), wordAddr_toNat,
    Nat.div_add_mod']

theorem wordAt_of_byteAt {s : State} {a : Word} {b : Byte} (h : s.byteAt a = some b) :
    WordAt s (aligned a) (s.mem.readWord (wordAddr a).toNat) ∧ s.mem.readByte a.toNat = b := by
  unfold State.byteAt at h
  split at h
  · next hmap =>
    rw [aligned_eq, wordAt_iff (wordAddr_wordAddr a)]
    exact ⟨⟨hmap, rfl⟩, Option.some.inj h⟩
  · cases h

/-- LOADI.S1.X2Y pushes the word its X points to. -/
theorem endsWithStack_loadi_push {s : State} {a w : Word} {rest : List Word} (he : s.estack = a :: rest)
    (hlt : s.estack.length < s.params.estackDepth) (hw : WordAt s (aligned a) w) :
    EndsWithStack (.loadi .s1 true) s (w :: a :: rest) := by
  have h := endsWithStack_loadi (m := .s1) (moveFault_none_of_cons he fun _ => hlt) (State.x_cons he ▸ hw) true
  rw [he] at h
  simpa [updCells, movedDepth] using h

/-- BSEL.SM1 leaves its result in the place of X and Y. -/
theorem endsWithStack_bsel_pop {s : State} {x y : Word} {rest : List Word} (he : s.estack = x :: y :: rest) :
    EndsWithStack (.bsel .sm1 false) s (selectByte x y :: rest) := by
  obtain ⟨_, rfl, h⟩ := endsWithUpd_of_runAlu (m := .sm1) (x2y := false) (exec_bsel ..) he nofun
  exact h

/-- Settles O60: LOADI leaves the word over its byte address, which selects the byte. -/
theorem byteLoadIdiom : Obligations.ByteLoadIdiom := by
  intro s a b rest he hlt hb
  obtain ⟨hw, rfl⟩ := wordAt_of_byteAt hb
  refine ⟨_, _, endsWithStack_loadi_push he hlt hw, endsWithStack_bsel_pop rfl, ?_, ?_, ⟨rfl, rfl, rfl, rfl⟩,
    fun _ => rfl, rfl⟩
  · rw [← selectByte_readWord]
  · simp [BitVec.add_assoc]

end Sys2Proof.Proofs.MemoryAccess
end

section
/-! PROOFS. The fetch: where it stops, which half of a word it takes, and what it sees of a store and of the host's
load. -/

namespace Sys2Proof.Proofs.Fetch

open Sys2Proof.Machine Sys2Proof.Claims Sys2Proof.Proofs.Scope Sys2Proof.Proofs.PerInstruction
  Sys2Proof.Proofs.MemoryAccess

/-! ## The stops of a fetch, in the order of R217 -/

theorem step_of_fetch_error {s : State} {f : Fault} (h : s.fetch = .error f) : step s = .fault f := by
  simp only [step, h]

section
variable {s : State}

theorem fetch_of_odd (h : s.pc.getLsbD 0 = true) : s.fetch = .error (.oddPC s.pc) := by
  rw [State.fetch, if_pos h]

theorem fetch_of_unmapped (he : s.pc.getLsbD 0 = false) (hm : mapped s.params (wordAddr s.pc) = false) :
    s.fetch = .error (.unmappedAccess .fetch (wordAddr s.pc)) := by
  rw [State.fetch, if_neg (Bool.eq_false_iff.1 he), if_pos (by simp [hm])]

theorem fetch_of_written (he : s.pc.getLsbD 0 = false) (hm : mapped s.params (wordAddr s.pc) = true)
    (hc : s.params.ifetchCoherent = false) (hw : (wordAddr s.pc).toNat ∈ s.written) :
    s.fetch = .error (.fetchFromWrittenWord (wordAddr s.pc)) := by
  rw [State.fetch, if_neg (Bool.eq_false_iff.1 he), if_neg (by simp [hm]), if_pos (by simp [hc, hw])]

end

/-- Settles O15. -/
theorem fetchStops : Obligations.FetchStops := by
  refine fun s => ⟨fun ho => step_of_fetch_error (fetch_of_odd ho), fun he hex => ?_, fun he hex hc hw => ?_⟩
  · rw [aligned_eq]
    exact step_of_fetch_error (fetch_of_unmapped he (mapped_of_not_exists hex))
  · rw [aligned_eq] at hw ⊢
    exact step_of_fetch_error (fetch_of_written he ((exists_aligned_iff s s.pc).1 hex) hc hw)

/-! ## The half that PC[1] selects (R53) -/

theorem getLsbD_zero_eq_false_iff {a : Word} : a.getLsbD 0 = false ↔ a.toNat % 2 = 0 := by
  simp [BitVec.getLsbD, Nat.testBit_zero]

theorem selectHalf_eq (pc w : Word) :
    selectHalf pc w = if pc.toNat / 2 % 2 = 1 then w.extractLsb' 0 16 else w.extractLsb' 16 16 := by
  simp [selectHalf, BitVec.getLsbD, Nat.testBit_succ]

theorem wordAddr_of_mod {a : Word} (h : a.toNat % 4 = 0) : wordAddr a = a := by
  apply BitVec.eq_of_toNat_eq
  rw [wordAddr_toNat]
  omega

/-- The fetch from a word that exists and may be fetched from. -/
theorem fetch_of_wordAt {s : State} {a w : Word} (he : s.pc.getLsbD 0 = false) (ha : wordAddr s.pc = a)
    (hw : WordAt s a w) (hc : s.params.ifetchCoherent = true ∨ a.toNat ∉ s.written) :
    s.fetch = .ok (selectHalf s.pc w) := by
  subst ha
  rw [wordAt_iff (wordAddr_wordAddr _)] at hw
  obtain ⟨hmap, rfl⟩ := hw
  exact State.fetch_eq_ok.2 ⟨he, hmap, hc, rfl⟩

/-- Settles O14. -/
theorem fetchTakesHalf : Obligations.FetchTakesHalf := by
  intro s a w ha hw hc
  have hself := wordAddr_of_mod ha
  obtain ⟨hlow, hnat⟩ := wordAddr_add hself (k := 2#32) (by decide)
  rw [BitVec.toNat_ofNat] at hnat
  refine ⟨fun hpc => ?_, fun hpc => ?_⟩
  · subst hpc
    rw [fetch_of_wordAt (getLsbD_zero_eq_false_iff.2 (by omega)) hself hw hc, selectHalf_eq, if_neg (by omega)]
  · rw [← hpc] at hlow hnat
    rw [fetch_of_wordAt (getLsbD_zero_eq_false_iff.2 (by omega)) hlow hw hc, selectHalf_eq, if_pos (by omega)]

/-! ## A fetch after a store (R66) -/

/-- Settles O16: the word at PC is the word just stored to. -/
theorem fetchAfterStore : Obligations.FetchAfterStore := by
  intro s t a v hwf h he hpc
  obtain ⟨hmap, rfl⟩ := State.memWrite_eq_ok.1 h
  rw [aligned_eq, aligned_eq] at hpc
  refine ⟨fun hc => ?_, fun hc => ?_⟩
  · rw [aligned_eq]
    have hstored : (wordAddr (s.setWord (wordAddr a) v).pc).toNat ∈ (s.setWord (wordAddr a) v).written := by
      rw [State.setWord_written, mem_addWritten]
      exact .inl (congrArg BitVec.toNat hpc)
    have herr := fetch_of_written he ((congrArg (mapped s.params) hpc).trans hmap) hc hstored
    rw [hpc] at herr
    exact step_of_fetch_error herr
  · exact fetch_of_wordAt he hpc (wordAt_setWord hwf hmap v) (.inl hc)

/-! ## A fetch after the host's load (R241) -/

theorem mapped_withMapped (p : Config.Params) (a : Word) : mapped (withMapped p a) a = true := by
  unfold withMapped
  split
  · assumption
  · simp [mapped, holdsAddr]

/-- Sixteen bits are their two bytes. -/
theorem extractLsb'_bytes {n : Nat} (x : BitVec n) (lo : Nat) :
    x.extractLsb' (lo + 8) 8 ++ x.extractLsb' lo 8 = x.extractLsb' lo 16 :=
  BitVec.extractLsb'_append_extractLsb'_eq_extractLsb' rfl

/-- The half an even address selects is made of the two bytes there (R52, R53). -/
theorem selectHalf_readWord (m : Memory) {a : Word} (he : a.getLsbD 0 = false) :
    selectHalf a (m.readWord (wordAddr a).toNat) = m.readByte a.toNat ++ m.readByte (a.toNat + 1) := by
  rw [getLsbD_zero_eq_false_iff] at he
  have hbyte : ∀ k < 4, (m.readWord (wordAddr a).toNat).extractLsb' (8 * (3 - k)) 8 =
      m.readByte (a.toNat / 4 * 4 + k) := fun k hk => by rw [extractLsb'_readWord m _ hk, wordAddr_toNat]
  rw [selectHalf_eq]
  split
  · have ha : a.toNat = a.toNat / 4 * 4 + 2 := by omega
    rw [ha, ← hbyte 2 (by decide), Nat.add_assoc, ← hbyte 3 (by decide)]
    exact (extractLsb'_bytes _ _).symm
  · have ha : a.toNat = a.toNat / 4 * 4 + 0 := by omega
    rw [ha, ← hbyte 0 (by decide), Nat.add_assoc, ← hbyte 1 (by decide)]
    exact (extractLsb'_bytes _ _).symm

theorem ins_bytes_append (w : Ins) : w.extractLsb' 8 8 ++ w.extractLsb' 0 8 = w :=
  (extractLsb'_bytes w 0).trans BitVec.extractLsb'_eq_self

/-- The two bytes of a loaded instruction. -/
theorem readByte_writeIns {m : Memory} (hwf : m.wf = true) {a : Nat} (ha : a < 2 ^ 32) (w : Ins) :
    (m.writeIns a w).readByte a ++ (m.writeIns a w).readByte (a + 1) = w := by
  have hwf' := Memory.wf_writeByte hwf ha (w.extractLsb' 8 8)
  rw [Memory.writeIns, Memory.readByte_writeByte hwf', Memory.readByte_writeByte hwf', Memory.readByte_writeByte hwf,
    if_neg (by omega), if_pos rfl, if_pos rfl, ins_bytes_append]

/-- The address the host's load leaves in PC: bit 0 cleared. -/
theorem placeIns_pc (s : State) (w : Ins) : (s.placeIns w).pc = s.pc &&& 0xFFFFFFFE#32 := rfl

theorem placeIns_pc_even (s : State) (w : Ins) : (s.placeIns w).pc.getLsbD 0 = false := by
  rw [placeIns_pc, BitVec.getLsbD_and]
  exact Bool.and_false _

theorem placeIns_pc_of_even {s : State} (he : s.pc.getLsbD 0 = false) (w : Ins) : (s.placeIns w).pc = s.pc := by
  rw [placeIns_pc]
  have hmask : ∀ i < 32, i ≠ 0 → (0xFFFFFFFE#32).getLsbD i = true := by decide
  apply BitVec.eq_of_getLsbD_eq
  intro i hi
  rw [BitVec.getLsbD_and]
  by_cases h0 : i = 0
  · rw [h0, he, Bool.false_and]
  · rw [hmask i hi h0, Bool.and_true]

theorem placeIns_written (s : State) (w : Ins) :
    (s.placeIns w).written = s.written.filter (· != (wordAddr (s.placeIns w).pc).toNat) := rfl

/-- The load sets right all that keeps a fetch from its word. -/
theorem fetch_placeIns {s : State} (hwf : s.mem.wf = true) (w : Ins) : (s.placeIns w).fetch = .ok w := by
  have he := placeIns_pc_even s w
  refine State.fetch_eq_ok.2 ⟨he, mapped_withMapped .., .inr ?_, ?_⟩
  · simp [placeIns_written]
  · rw [selectHalf_readWord _ he]
    exact (readByte_writeIns hwf (BitVec.isLt _) w).symm

theorem withFetchWord_toNat (s : State) (w : Ins) : s.withFetchWord 16 w.toNat = s.placeIns w := by
  rw [State.withFetchWord, Nat.mod_eq_of_lt w.isLt, BitVec.ofNat_toNat, BitVec.setWidth_eq]

/-- Settles O13. -/
theorem loadedWordIsFetchedNext : Obligations.LoadedWordIsFetchedNext := by
  intro s w hwf
  rw [withFetchWord_toNat]
  exact ⟨fetch_placeIns hwf w, rfl, rfl, rfl, rfl, fun he => placeIns_pc_of_even he w⟩

end Sys2Proof.Proofs.Fetch
end

section
/-! PROOFS. The words of an instruction: the fields of the formats, the decoder in terms of them, and the rule that a
word decodes to an instruction exactly where it is the word of that instruction but for unused bits. -/

namespace Sys2Proof.Proofs.Encoding

open Sys2Proof.Machine Sys2Proof.Claims Sys2Proof.Laws Sys2Proof.Proofs.Effects Sys2Proof.Proofs.PerInstruction

/-! ## Fields -/

theorem field_toNat (w : Ins) (lo len : Nat) : (field w lo len).toNat = bitsOf w lo len := by
  rw [field, BitVec.extractLsb'_toNat, Nat.shiftRight_eq_div_pow, bitsOf]

/-- A field of one bit is that bit. -/
theorem field_one (w : Ins) (n : Nat) : field w n 1 = BitVec.ofBool (w.getLsbD n) := by
  ext i hi
  obtain rfl : i = 0 := by omega
  simp [field]

theorem getLsbD_field (w : Ins) (lo : Nat) {len n : Nat} (hn : n < len) :
    (field w lo len).getLsbD n = w.getLsbD (lo + n) := by
  simp [field, hn]

/-- Masking bits off leaves a field outside the mask. -/
theorem field_keep {u : Ins} {lo len : Nat} (hu : field u lo len = 0#len) (hlen : lo + len ≤ 16) (w : Ins) :
    field (w &&& ~~~u) lo len = field w lo len := by
  ext i hi
  have hbit : u.getLsbD (lo + i) = false := by rw [← getLsbD_field u lo hi, hu, BitVec.getLsbD_zero]
  have hlt : lo + i < 16 := by omega
  simp only [field, BitVec.getElem_extractLsb', BitVec.getLsbD_and, BitVec.getLsbD_not, hbit, hlt, decide_true,
    Bool.not_false, Bool.and_true]

/-- Masking bits off clears a field inside the mask. -/
theorem field_clear {u : Ins} {lo len : Nat} (hu : field u lo len = BitVec.allOnes len) (w : Ins) :
    field (w &&& ~~~u) lo len = 0#len := by
  ext i hi
  have hbit : u.getLsbD (lo + i) = true := by
    rw [← getLsbD_field u lo hi, hu, BitVec.getLsbD_allOnes, decide_eq_true hi]
  simp only [field, BitVec.getElem_extractLsb', BitVec.getLsbD_and, BitVec.getLsbD_not, hbit, Bool.not_true,
    Bool.and_false, BitVec.getElem_zero]

/-- Two words agree on their low bits exactly where they agree on both parts of them. -/
theorem field_eq_iff_cut (v w : Ins) (a b : Nat) :
    field v 0 (b + a) = field w 0 (b + a) ↔ field v a b = field w a b ∧ field v 0 a = field w 0 a := by
  have hjoin (x : Ins) : field x 0 (b + a) = field x a b ++ field x 0 a :=
    (BitVec.extractLsb'_append_extractLsb'_eq_extractLsb' (Nat.zero_add a).symm).symm
  rw [hjoin, hjoin]
  refine ⟨fun h => ⟨?_, ?_⟩, fun ⟨hb, ha⟩ => by rw [ha, hb]⟩
  · simpa only [BitVec.extractLsb'_append_eq_left] using congrArg (BitVec.extractLsb' a b) h
  · simpa only [BitVec.extractLsb'_append_eq_right] using congrArg (BitVec.extractLsb' 0 a) h

theorem eq_iff_field_all (v w : Ins) : v = w ↔ field v 0 16 = field w 0 16 := by
  rw [field, field, BitVec.extractLsb'_eq_self, BitVec.extractLsb'_eq_self]

/-! ## The formats, with any bits in their fields

The encoder's formats are these with the unused bits 0 and the movements those of R84. -/

/-- Format A (R82). -/
def layoutA (op : BitVec 4) (u : BitVec 1) (xt x2y : Bool) (mv : BitVec 2) (k : BitVec 4) : Ins :=
  0b001#3 ++ op ++ u ++ BitVec.ofBool xt ++ BitVec.ofBool x2y ++ mv ++ k

/-- Format X (R90). -/
def layoutX (u : BitVec 3) (rs : BitVec 2) (r2p p2r : Bool) (mv : BitVec 2) (v : BitVec 3) (x2p : Bool) : Ins :=
  0b011#3 ++ u ++ rs ++ BitVec.ofBool r2p ++ BitVec.ofBool p2r ++ mv ++ v ++ BitVec.ofBool x2p

/-- Format ER (R94). -/
def layoutER (write : Bool) (u : BitVec 5) (r : BitVec 4) : Ins :=
  0b111#3 ++ 0b000#3 ++ BitVec.ofBool write ++ u ++ r

/-- Format EM (R95). -/
def layoutEM (write : Bool) (u : BitVec 2) (x2y : Bool) (mv : BitVec 2) (k : BitVec 4) : Ins :=
  0b111#3 ++ 0b001#3 ++ BitVec.ofBool write ++ u ++ BitVec.ofBool x2y ++ mv ++ k

theorem formatA_eq (op : BitVec 4) (xt x2y : Bool) (m : StackMove) (k : BitVec 4) :
    formatA op xt x2y m k = layoutA op 0#1 xt x2y (encodeMove m) k := rfl

theorem formatX_eq (rs : StackMove) (r2p p2r : Bool) (m : StackMove) (x2p : Bool) :
    formatX rs r2p p2r m x2p = layoutX 0#3 (encodeMove rs) r2p p2r (encodeMove m) 0#3 x2p := rfl

theorem formatER_eq (write : Bool) (r : Reg) : formatER write r = layoutER write 0#5 (encodeReg r) := rfl

theorem formatEM_eq (write x2y : Bool) (m : StackMove) (k : BitVec 4) :
    formatEM write x2y m k = layoutEM write 0#2 x2y (encodeMove m) k := rfl

theorem layoutA_fields (op : BitVec 4) (u : BitVec 1) (xt x2y : Bool) (mv : BitVec 2) (k : BitVec 4) :
    field (layoutA op u xt x2y mv k) 13 3 = 1#3 ∧ field (layoutA op u xt x2y mv k) 9 4 = op ∧
      field (layoutA op u xt x2y mv k) 8 1 = u ∧ field (layoutA op u xt x2y mv k) 7 1 = BitVec.ofBool xt ∧
      field (layoutA op u xt x2y mv k) 6 1 = BitVec.ofBool x2y ∧ field (layoutA op u xt x2y mv k) 4 2 = mv ∧
      field (layoutA op u xt x2y mv k) 0 4 = k := by
  refine ⟨?_, ?_, ?_, ?_, ?_, ?_, ?_⟩ <;> rw [field, layoutA] <;>
    repeat rw [BitVec.extractLsb'_append_eq_of_le (by decide)]
  · exact BitVec.extractLsb'_eq_self
  all_goals exact BitVec.extractLsb'_append_eq_right

theorem layoutX_fields (u : BitVec 3) (rs : BitVec 2) (r2p p2r : Bool) (mv : BitVec 2) (v : BitVec 3) (x2p : Bool) :
    field (layoutX u rs r2p p2r mv v x2p) 13 3 = 3#3 ∧ field (layoutX u rs r2p p2r mv v x2p) 10 3 = u ∧
      field (layoutX u rs r2p p2r mv v x2p) 8 2 = rs ∧ field (layoutX u rs r2p p2r mv v x2p) 7 1 = BitVec.ofBool r2p ∧
      field (layoutX u rs r2p p2r mv v x2p) 6 1 = BitVec.ofBool p2r ∧ field (layoutX u rs r2p p2r mv v x2p) 4 2 = mv ∧
      field (layoutX u rs r2p p2r mv v x2p) 1 3 = v ∧
      field (layoutX u rs r2p p2r mv v x2p) 0 1 = BitVec.ofBool x2p := by
  refine ⟨?_, ?_, ?_, ?_, ?_, ?_, ?_, ?_⟩ <;> rw [field, layoutX] <;>
    repeat rw [BitVec.extractLsb'_append_eq_of_le (by decide)]
  · exact BitVec.extractLsb'_eq_self
  all_goals exact BitVec.extractLsb'_append_eq_right

theorem layoutER_fields (write : Bool) (u : BitVec 5) (r : BitVec 4) :
    field (layoutER write u r) 13 3 = 7#3 ∧ field (layoutER write u r) 10 3 = 0#3 ∧
      field (layoutER write u r) 9 1 = BitVec.ofBool write ∧ field (layoutER write u r) 4 5 = u ∧
      field (layoutER write u r) 0 4 = r := by
  refine ⟨?_, ?_, ?_, ?_, ?_⟩ <;> rw [field, layoutER] <;>
    repeat rw [BitVec.extractLsb'_append_eq_of_le (by decide)]
  · exact BitVec.extractLsb'_eq_self
  all_goals exact BitVec.extractLsb'_append_eq_right

theorem layoutEM_fields (write : Bool) (u : BitVec 2) (x2y : Bool) (mv : BitVec 2) (k : BitVec 4) :
    field (layoutEM write u x2y mv k) 13 3 = 7#3 ∧ field (layoutEM write u x2y mv k) 10 3 = 1#3 ∧
      field (layoutEM write u x2y mv k) 9 1 = BitVec.ofBool write ∧ field (layoutEM write u x2y mv k) 7 2 = u ∧
      field (layoutEM write u x2y mv k) 6 1 = BitVec.ofBool x2y ∧ field (layoutEM write u x2y mv k) 4 2 = mv ∧
      field (layoutEM write u x2y mv k) 0 4 = k := by
  refine ⟨?_, ?_, ?_, ?_, ?_, ?_, ?_⟩ <;> rw [field, layoutEM] <;>
    repeat rw [BitVec.extractLsb'_append_eq_of_le (by decide)]
  · exact BitVec.extractLsb'_eq_self
  all_goals exact BitVec.extractLsb'_append_eq_right

theorem formatM_fields (op : BitVec 3) (off : BitVec 13) (flag : Bool) :
    field (formatM op off flag) 13 3 = op ∧ field (formatM op off flag) 1 12 = off.extractLsb' 1 12 ∧
      field (formatM op off flag) 0 1 = BitVec.ofBool flag := by
  refine ⟨?_, ?_, ?_⟩ <;> rw [field, formatM] <;>
    repeat rw [BitVec.extractLsb'_append_eq_of_le (by decide)]
  · exact BitVec.extractLsb'_eq_self
  all_goals exact BitVec.extractLsb'_append_eq_right

theorem formatE_fields (ext : BitVec 3) (operand : BitVec 10) :
    field (formatE ext operand) 13 3 = 7#3 ∧ field (formatE ext operand) 10 3 = ext ∧
      field (formatE ext operand) 0 10 = operand := by
  refine ⟨?_, ?_, ?_⟩ <;> rw [field, formatE] <;>
    repeat rw [BitVec.extractLsb'_append_eq_of_le (by decide)]
  · exact BitVec.extractLsb'_eq_self
  all_goals exact BitVec.extractLsb'_append_eq_right

/-! ## The word of an instruction, read as fields -/

section
variable {w : Ins} {op : BitVec 4} {xt x2y write r2p p2r x2p : Bool} {m rs : StackMove} {k : BitVec 4} {r : Reg}

theorem eq_iff_fieldsA {v w : Ins} :
    v = w ↔ field v 13 3 = field w 13 3 ∧ field v 9 4 = field w 9 4 ∧ field v 8 1 = field w 8 1 ∧
      field v 7 1 = field w 7 1 ∧ field v 6 1 = field w 6 1 ∧ field v 4 2 = field w 4 2 ∧
      field v 0 4 = field w 0 4 := by
  rw [eq_iff_field_all, field_eq_iff_cut v w 13 3, field_eq_iff_cut v w 9 4, field_eq_iff_cut v w 8 1,
    field_eq_iff_cut v w 7 1, field_eq_iff_cut v w 6 1, field_eq_iff_cut v w 4 2]

theorem masked_eq_formatA_plain :
    w &&& ~~~0x018F#16 = formatA op false x2y m 0#4 ↔
      field w 13 3 = 1#3 ∧ field w 9 4 = op ∧ w.getLsbD 6 = x2y ∧ field w 4 2 = encodeMove m := by
  rw [eq_iff_fieldsA, formatA_eq]
  simp (disch := decide) only [layoutA_fields, field_keep, field_clear]
  simp [field_one, BitVec.ofBool_eq_iff_eq]

theorem masked_eq_formatA_operand :
    w &&& ~~~0x0180#16 = formatA op false x2y m k ↔
      field w 13 3 = 1#3 ∧ field w 9 4 = op ∧ w.getLsbD 6 = x2y ∧ field w 4 2 = encodeMove m ∧ field w 0 4 = k := by
  rw [eq_iff_fieldsA, formatA_eq]
  simp (disch := decide) only [layoutA_fields, field_keep, field_clear]
  simp [field_one, BitVec.ofBool_eq_iff_eq]

theorem masked_eq_formatA_xt :
    w &&& ~~~0x010F#16 = formatA op xt x2y m 0#4 ↔
      field w 13 3 = 1#3 ∧ field w 9 4 = op ∧ w.getLsbD 7 = xt ∧ w.getLsbD 6 = x2y ∧ field w 4 2 = encodeMove m := by
  rw [eq_iff_fieldsA, formatA_eq]
  simp (disch := decide) only [layoutA_fields, field_keep, field_clear]
  simp [field_one, BitVec.ofBool_eq_iff_eq]

theorem masked_eq_formatX :
    w &&& ~~~0x1C0E#16 = formatX rs r2p p2r m x2p ↔
      field w 13 3 = 3#3 ∧ field w 8 2 = encodeMove rs ∧ w.getLsbD 7 = r2p ∧ w.getLsbD 6 = p2r ∧
        field w 4 2 = encodeMove m ∧ w.getLsbD 0 = x2p := by
  rw [eq_iff_field_all, field_eq_iff_cut _ _ 13 3, field_eq_iff_cut _ _ 10 3, field_eq_iff_cut _ _ 8 2,
    field_eq_iff_cut _ _ 7 1, field_eq_iff_cut _ _ 6 1, field_eq_iff_cut _ _ 4 2,
    field_eq_iff_cut _ _ 1 3, formatX_eq]
  simp (disch := decide) only [layoutX_fields, field_keep, field_clear]
  simp [field_one, BitVec.ofBool_eq_iff_eq]

theorem masked_eq_formatER :
    w &&& ~~~0x01F0#16 = formatER write r ↔
      field w 13 3 = 7#3 ∧ field w 10 3 = 0#3 ∧ w.getLsbD 9 = write ∧ field w 0 4 = encodeReg r := by
  rw [eq_iff_field_all, field_eq_iff_cut _ _ 13 3, field_eq_iff_cut _ _ 10 3, field_eq_iff_cut _ _ 9 1,
    field_eq_iff_cut _ _ 4 5, formatER_eq]
  simp (disch := decide) only [layoutER_fields, field_keep, field_clear]
  simp [field_one, BitVec.ofBool_eq_iff_eq]

theorem eq_iff_fieldsEM {v w : Ins} :
    v = w ↔ field v 13 3 = field w 13 3 ∧ field v 10 3 = field w 10 3 ∧ field v 9 1 = field w 9 1 ∧
      field v 7 2 = field w 7 2 ∧ field v 6 1 = field w 6 1 ∧ field v 4 2 = field w 4 2 ∧
      field v 0 4 = field w 0 4 := by
  rw [eq_iff_field_all, field_eq_iff_cut v w 13 3, field_eq_iff_cut v w 10 3, field_eq_iff_cut v w 9 1,
    field_eq_iff_cut v w 7 2, field_eq_iff_cut v w 6 1, field_eq_iff_cut v w 4 2]

theorem masked_eq_formatEM_plain :
    w &&& ~~~0x018F#16 = formatEM write x2y m 0#4 ↔
      field w 13 3 = 7#3 ∧ field w 10 3 = 1#3 ∧ w.getLsbD 9 = write ∧ w.getLsbD 6 = x2y ∧
        field w 4 2 = encodeMove m := by
  rw [eq_iff_fieldsEM, formatEM_eq]
  simp (disch := decide) only [layoutEM_fields, field_keep, field_clear]
  simp [field_one, BitVec.ofBool_eq_iff_eq]

theorem masked_eq_formatEM_operand :
    w &&& ~~~0x0180#16 = formatEM write x2y m k ↔
      field w 13 3 = 7#3 ∧ field w 10 3 = 1#3 ∧ w.getLsbD 9 = write ∧ w.getLsbD 6 = x2y ∧
        field w 4 2 = encodeMove m ∧ field w 0 4 = k := by
  rw [eq_iff_fieldsEM, formatEM_eq]
  simp (disch := decide) only [layoutEM_fields, field_keep, field_clear]
  simp [field_one, BitVec.ofBool_eq_iff_eq]

/-- Formats B and C: three opcode bits and a 13-bit constant (R81, R92). -/
theorem eq_append13 {c : BitVec 13} {op : BitVec 3} : w = op ++ c ↔ field w 13 3 = op ∧ field w 0 13 = c := by
  rw [eq_iff_field_all, field_eq_iff_cut _ _ 13 3, field_high3, field_low13]

theorem evenOffset_eq_iff {off : BitVec 13} (he : off.getLsbD 0 = false) :
    evenOffset w = off ↔ field w 1 12 = off.extractLsb' 1 12 := by
  have h0 : off.extractLsb' 0 1 = 0#1 := by
    ext i hi
    obtain rfl : i = 0 := by omega
    simpa using he
  have hoff : off.extractLsb' 1 12 ++ 0#1 = off := by
    rw [← h0]
    exact (BitVec.extractLsb'_append_extractLsb'_eq_extractLsb' rfl).trans BitVec.extractLsb'_eq_self
  rw [evenOffset, ← BitVec.append_left_inj (s₁ := field w 1 12) (0#1), hoff]

/-- Formats M and CB (R89, R91). -/
theorem eq_formatM {op : BitVec 3} {off : BitVec 13} {flag : Bool} (he : off.getLsbD 0 = false) :
    w = formatM op off flag ↔ field w 13 3 = op ∧ evenOffset w = off ∧ w.getLsbD 0 = flag := by
  rw [eq_iff_field_all, field_eq_iff_cut _ _ 13 3, field_eq_iff_cut _ _ 1 12, evenOffset_eq_iff he]
  simp only [formatM_fields]
  rw [field_one, BitVec.ofBool_eq_iff_eq]

/-- Formats EF, EL and the reserved EXT classes (R93, R96). -/
theorem eq_formatE {ext : BitVec 3} {operand : BitVec 10} :
    w = formatE ext operand ↔ field w 13 3 = 7#3 ∧ field w 10 3 = ext ∧ field w 0 10 = operand := by
  rw [eq_iff_field_all, field_eq_iff_cut _ _ 13 3, field_eq_iff_cut _ _ 10 3]
  simp only [formatE_fields]

end

/-! ## The cases of a field -/

theorem bitVec3_cases : ∀ f : BitVec 3,
    f = 0#3 ∨ f = 1#3 ∨ f = 2#3 ∨ f = 3#3 ∨ f = 4#3 ∨ f = 5#3 ∨ f = 6#3 ∨ f = 7#3 := by decide

theorem bitVec4_cases : ∀ f : BitVec 4,
    f = 0#4 ∨ f = 1#4 ∨ f = 2#4 ∨ f = 3#4 ∨ f = 4#4 ∨ f = 5#4 ∨ f = 6#4 ∨ f = 7#4 ∨ f = 8#4 ∨ f = 9#4 ∨ f = 10#4 ∨
      f = 11#4 ∨ f = 12#4 ∨ f = 13#4 ∨ f = 14#4 ∨ f = 15#4 := by decide

/-- A movement field is that of a movement or reserved (R84). -/
theorem moveField_cases (f : BitVec 2) : (∃ m, f = encodeMove m) ∨ f = 2#2 := by
  have h : f = 0#2 ∨ f = 1#2 ∨ f = 3#2 ∨ f = 2#2 := by revert f; decide
  obtain rfl | rfl | rfl | rfl := h
  exacts [.inl ⟨.s0, rfl⟩, .inl ⟨.s1, rfl⟩, .inl ⟨.sm1, rfl⟩, .inr rfl]

@[simp] theorem decodeMove_reserved : decodeMove 2#2 = none := rfl

theorem encodeMove_ne_reserved (m : StackMove) : encodeMove m ≠ 2#2 := by
  cases m <;> decide

/-- A register specification is that of a register or reserved (R94). -/
theorem regField_cases (f : BitVec 4) : (∃ r, f = encodeReg r) ∨ (2 < f.toNat ∧ decodeReg f = none) := by
  have h : f = 0#4 ∨ f = 1#4 ∨ f = 2#4 ∨ (2 < f.toNat ∧ decodeReg f = none) := by revert f; decide
  obtain rfl | rfl | rfl | h := h
  exacts [.inl ⟨.fp, rfl⟩, .inl ⟨.bp, rfl⟩, .inl ⟨.rp, rfl⟩, .inr h]

theorem encodeReg_le_two (r : Reg) : (encodeReg r).toNat ≤ 2 := by
  cases r <;> decide

@[simp] theorem encodeBase_decodeBase (b : Bool) : encodeBase (decodeBase b) = b := by
  cases b <;> rfl

/-- The selector in operand bits 2, 1, 0 (R88). -/
def selectorBits (k : BitVec 4) : Selector := ⟨k.getLsbD 2, k.getLsbD 1, k.getLsbD 0⟩

theorem encodeSelector_selectorBits : ∀ {k : BitVec 4}, k.getLsbD 3 = false → encodeSelector (selectorBits k) = k := by
  decide

theorem selectorBits_encodeSelector (sel : Selector) : selectorBits (encodeSelector sel) = sel := by
  obtain ⟨ci, ce, cl⟩ := sel
  cases ci <;> cases ce <;> cases cl <;> rfl

theorem encodeSelector_bit3 (sel : Selector) : (encodeSelector sel).getLsbD 3 = false := by
  obtain ⟨ci, ce, cl⟩ := sel
  cases ci <;> cases ce <;> cases cl <;> rfl

/-! ## The decoder, an equation per format -/

/-- The function of R83 at the number `op`, with the modifiers of format A; the selector is read from the operand. -/
def aluInstr (op : BitVec 4) (xt x2y : Bool) (m : StackMove) (k : BitVec 4) : Instr :=
  (aluInstrs m x2y xt (selectorBits k) k)[op.toNat]'op.isLt

/-- R98 (e): the operand bit that CMP and CMPU do not use is set. -/
def BadSelector (op k : BitVec 4) : Prop := (op = 6#4 ∨ op = 12#4) ∧ k.getLsbD 3 = true

section
variable {w : Ins} {m rs : StackMove} {r : Reg}

theorem decodeMachine_branch (h : field w 13 3 = 0#3) : decodeMachine w = .ok (.branch (field w 0 13)) := by
  simp [decodeMachine, h]

theorem decodeMachine_alu (h : field w 13 3 = 1#3) : decodeMachine w = decodeAlu w := by
  simp [decodeMachine, h]

theorem decodeMachine_store (h : field w 13 3 = 2#3) :
    decodeMachine w = .ok (.store (evenOffset w) (decodeBase (w.getLsbD 0))) := by
  simp [decodeMachine, h]

theorem decodeMachine_xfer (h : field w 13 3 = 3#3) : decodeMachine w = decodeXfer w := by
  simp [decodeMachine, h]

theorem decodeMachine_load (h : field w 13 3 = 4#3) :
    decodeMachine w = .ok (.load (evenOffset w) (decodeBase (w.getLsbD 0))) := by
  simp [decodeMachine, h]

theorem decodeMachine_cbranch (h : field w 13 3 = 5#3) :
    decodeMachine w = .ok (.cbranch (evenOffset w) (w.getLsbD 0)) := by
  simp [decodeMachine, h]

theorem decodeMachine_loadc (h : field w 13 3 = 6#3) : decodeMachine w = .ok (.loadc (field w 0 13)) := by
  simp [decodeMachine, h]

theorem decodeMachine_register (h : field w 13 3 = 7#3) (he : field w 10 3 = 0#3) :
    decodeMachine w = decodeRegister w := by
  simp [decodeMachine, decodeExt, h, he]

theorem decodeMachine_indirect (h : field w 13 3 = 7#3) (he : field w 10 3 = 1#3) :
    decodeMachine w = decodeIndirect w := by
  simp [decodeMachine, decodeExt, h, he]

theorem decodeMachine_reservedExt010 (h : field w 13 3 = 7#3) (he : field w 10 3 = 2#3) :
    decodeMachine w = .ok (.reservedExt010 (field w 0 10)) := by
  simp [decodeMachine, decodeExt, h, he]

theorem decodeMachine_fpadj (h : field w 13 3 = 7#3) (he : field w 10 3 = 3#3) :
    decodeMachine w = .ok (.fpadj (field w 0 10)) := by
  simp [decodeMachine, decodeExt, h, he]

theorem decodeMachine_reservedExt100 (h : field w 13 3 = 7#3) (he : field w 10 3 = 4#3) :
    decodeMachine w = .ok (.reservedExt100 (field w 0 10)) := by
  simp [decodeMachine, decodeExt, h, he]

theorem decodeMachine_loadrel (h : field w 13 3 = 7#3) (he : field w 10 3 = 5#3) :
    decodeMachine w = .ok (.loadrel (field w 0 10)) := by
  simp [decodeMachine, decodeExt, h, he]

theorem decodeMachine_reservedExt110 (h : field w 13 3 = 7#3) (he : field w 10 3 = 6#3) :
    decodeMachine w = .ok (.reservedExt110 (field w 0 10)) := by
  simp [decodeMachine, decodeExt, h, he]

theorem decodeMachine_reservedExt111 (h : field w 13 3 = 7#3) (he : field w 10 3 = 7#3) :
    decodeMachine w = .ok (.reservedExt111 (field w 0 10)) := by
  simp [decodeMachine, decodeExt, h, he]

theorem decodeAlu_of_reserved (hm : field w 4 2 = 2#2) : decodeAlu w = .error .reservedMove := by
  simp [decodeAlu, hm]

theorem decodeCompare_of_bit3 {make : Selector → Instr} {k : BitVec 4} (h : k.getLsbD 3 = true) :
    decodeCompare make k = .error .reservedSelector := by
  simp [decodeCompare, decodeSelector, h]

theorem decodeCompare_eq_ok {make : Selector → Instr} {k : BitVec 4} (h : k.getLsbD 3 = false) :
    decodeCompare make k = .ok (make (selectorBits k)) := by
  rw [decodeCompare, decodeSelector, h]
  rfl

theorem decodeAlu_of_badSelector (hm : field w 4 2 = encodeMove m) (hb : BadSelector (field w 9 4) (field w 0 4)) :
    decodeAlu w = .error .reservedSelector := by
  obtain ⟨hop | hop, h3⟩ := hb <;> simp [decodeAlu, hm, hop, decodeCompare_of_bit3 h3]

/-- Format A: the function at the number `aluop` (R83). -/
theorem decodeAlu_eq_ok (hm : field w 4 2 = encodeMove m) (hb : ¬ BadSelector (field w 9 4) (field w 0 4)) :
    decodeAlu w = .ok (aluInstr (field w 9 4) (w.getLsbD 7) (w.getLsbD 6) m (field w 0 4)) := by
  simp only [decodeAlu, hm, decodeMove_encodeMove]
  generalize field w 9 4 = op at hb ⊢
  have hsel (hop : op = 6#4 ∨ op = 12#4) : (field w 0 4).getLsbD 3 = false := Bool.eq_false_iff.2 fun h3 => hb ⟨hop, h3⟩
  rcases bitVec4_cases op with rfl | rfl | rfl | rfl | rfl | rfl | rfl | rfl | rfl | rfl | rfl | rfl | rfl | rfl |
    rfl | rfl
  exacts [rfl, rfl, rfl, rfl, rfl, rfl, decodeCompare_eq_ok (hsel (.inl rfl)), rfl, rfl, rfl, rfl, rfl,
    decodeCompare_eq_ok (hsel (.inr rfl)), rfl, rfl, rfl]

theorem decodeXfer_of_reserved (h : field w 8 2 = 2#2 ∨ field w 4 2 = 2#2) : decodeXfer w = .error .reservedMove := by
  rcases h with h | h
  · simp [decodeXfer, h]
  · rcases hrs : decodeMove (field w 8 2) <;> simp [decodeXfer, h, hrs]

theorem decodeXfer_eq (hrs : field w 8 2 = encodeMove rs) (hm : field w 4 2 = encodeMove m) :
    decodeXfer w = if m = .s1 ∨ (w.getLsbD 7 = true ∧ w.getLsbD 0 = true) then .error .reservedTransfer
      else .ok (.xfer rs (w.getLsbD 7) (w.getLsbD 6) m (w.getLsbD 0)) := by
  simp [decodeXfer, hrs, hm]

theorem decodeRegister_eq (hr : field w 0 4 = encodeReg r) :
    decodeRegister w = .ok (if w.getLsbD 9 then .storereg r else .loadreg r) := by
  simp [decodeRegister, hr]

theorem decodeIndirect_of_reserved (hm : field w 4 2 = 2#2) : decodeIndirect w = .error .reservedMove := by
  simp [decodeIndirect, hm]

theorem decodeIndirect_eq (hm : field w 4 2 = encodeMove m) :
    decodeIndirect w =
      .ok (if w.getLsbD 9 then .storei m (w.getLsbD 6) (field w 0 4) else .loadi m (w.getLsbD 6)) := by
  simp [decodeIndirect, hm]

end

/-! ## Both names of a setting have one word -/

/-- A second name, LOADCP among them, has the word of the instruction it stands for (R104, R196), case by case. -/
theorem encode_machine (i : Instr) : encode i.machine = encode i := by
  cases i <;> rfl

theorem unusedBits_machine (i : Instr) : i.machine.unusedBits = i.unusedBits := by
  cases i <;> rfl

theorem machine_machine (i : Instr) : i.machine.machine = i.machine := by
  cases i <;> rfl

/-- A name R104 gives stands for the setting it names. -/
theorem machine_named (i : Instr) : i.named.machine = i.machine := by
  unfold Instr.named
  split_ifs with h1 h2 h3 h4 h5 h6 h7 h8 <;> subst_vars <;> rfl

/-- `w` is a word of `i`: its canonical word but for the unused bits of its row (R97). -/
def Spells (w : Ins) (i : Instr) : Prop := w &&& ~~~i.unusedBits = encode i

/-- Words of an instruction are words of each of its names. -/
theorem spells_machine {w : Ins} {i : Instr} : Spells w i.machine ↔ Spells w i := by
  rw [Spells, Spells, encode_machine, unusedBits_machine]

theorem spells_named {w : Ins} {i : Instr} : Spells w i.named ↔ Spells w i := by
  rw [← spells_machine, machine_named, spells_machine]

theorem spells_iff_eq {w : Ins} {i : Instr} (hu : i.unusedBits = 0#16) : Spells w i ↔ w = encode i := by
  rw [Spells, hu, BitVec.not_zero, BitVec.and_allOnes]

/-! ## A word that decodes is a word of its instruction -/

section
variable {w : Ins} {i : Instr}

/-- The unused bits of a function of the ALU are bit 8 and those of XT and the operand that the function does not have
(R82, R86, R87). -/
theorem spells_aluInstr {m : StackMove} (h : field w 13 3 = 1#3) (hm : field w 4 2 = encodeMove m)
    (hb : ¬ BadSelector (field w 9 4) (field w 0 4)) :
    Spells w (aluInstr (field w 9 4) (w.getLsbD 7) (w.getLsbD 6) m (field w 0 4)) := by
  have plain (op) (hop : field w 9 4 = op) := masked_eq_formatA_plain.2 ⟨h, hop, rfl, hm⟩
  have operand (op) (hop : field w 9 4 = op) := masked_eq_formatA_operand.2 ⟨h, hop, rfl, hm, rfl⟩
  have compare (op) (hop : field w 9 4 = op) (hsel : op = 6#4 ∨ op = 12#4) :
      w &&& ~~~0x0180#16 =
        formatA op false (w.getLsbD 6) m (encodeSelector (selectorBits (field w 0 4))) := by
    rw [encodeSelector_selectorBits (Bool.eq_false_iff.2 fun h3 => hb ⟨hop ▸ hsel, h3⟩), operand op hop]
  generalize hop : field w 9 4 = op
  rcases bitVec4_cases op with rfl | rfl | rfl | rfl | rfl | rfl | rfl | rfl | rfl | rfl | rfl | rfl | rfl | rfl |
    rfl | rfl
  exacts [plain _ hop, plain _ hop, plain _ hop, plain _ hop, plain _ hop, plain _ hop, compare _ hop (.inl rfl),
    plain _ hop, masked_eq_formatA_xt.2 ⟨h, hop, rfl, rfl, hm⟩, operand _ hop, operand _ hop, operand _ hop,
    compare _ hop (.inr rfl), plain _ hop, plain _ hop, plain _ hop]

theorem mem_aluInstr (op : BitVec 4) (xt x2y : Bool) (m : StackMove) (k : BitVec 4) :
    aluInstr op xt x2y m k ∈ aluInstrs m x2y xt (selectorBits k) k :=
  List.getElem_mem _

theorem machine_of_mem_aluInstrs {m : StackMove} {x2y xt : Bool} {sel : Selector} {k : BitVec 4}
    (hi : i ∈ aluInstrs m x2y xt sel k) : i.machine = i := by
  simp only [aluInstrs, List.mem_cons, List.not_mem_nil, or_false] at hi
  rcases hi with rfl | rfl | rfl | rfl | rfl | rfl | rfl | rfl | rfl | rfl | rfl | rfl | rfl | rfl | rfl | rfl <;> rfl

theorem spells_of_decodeAlu (h : field w 13 3 = 1#3) (hd : decodeAlu w = .ok i) : i.machine = i ∧ Spells w i := by
  obtain ⟨m, hm⟩ | hm := moveField_cases (field w 4 2)
  · by_cases hb : BadSelector (field w 9 4) (field w 0 4)
    · simp [decodeAlu_of_badSelector hm hb] at hd
    · rw [decodeAlu_eq_ok hm hb] at hd
      cases hd
      exact ⟨machine_of_mem_aluInstrs (mem_aluInstr ..), spells_aluInstr h hm hb⟩
  · simp [decodeAlu_of_reserved hm] at hd

theorem spells_of_decodeXfer (h : field w 13 3 = 3#3) (hd : decodeXfer w = .ok i) : i.machine = i ∧ Spells w i := by
  obtain ⟨rs, hrs⟩ | hrs := moveField_cases (field w 8 2)
  · obtain ⟨m, hm⟩ | hm := moveField_cases (field w 4 2)
    · rw [decodeXfer_eq hrs hm] at hd
      split at hd <;> cases hd
      exact ⟨rfl, masked_eq_formatX.2 ⟨h, hrs, rfl, rfl, hm, rfl⟩⟩
    · simp [decodeXfer_of_reserved (.inr hm)] at hd
  · simp [decodeXfer_of_reserved (.inl hrs)] at hd

theorem spells_of_decodeRegister (h : field w 13 3 = 7#3) (he : field w 10 3 = 0#3) (hd : decodeRegister w = .ok i) :
    i.machine = i ∧ Spells w i := by
  obtain ⟨r, hr⟩ | ⟨-, hr⟩ := regField_cases (field w 0 4)
  · rw [decodeRegister_eq hr] at hd
    split at hd <;> cases hd
    · next hw => exact ⟨rfl, masked_eq_formatER.2 ⟨h, he, hw, hr⟩⟩
    · next hw => exact ⟨rfl, masked_eq_formatER.2 ⟨h, he, Bool.eq_false_iff.2 hw, hr⟩⟩
  · simp [decodeRegister, hr] at hd

theorem spells_of_decodeIndirect (h : field w 13 3 = 7#3) (he : field w 10 3 = 1#3) (hd : decodeIndirect w = .ok i) :
    i.machine = i ∧ Spells w i := by
  obtain ⟨m, hm⟩ | hm := moveField_cases (field w 4 2)
  · rw [decodeIndirect_eq hm] at hd
    split at hd <;> cases hd
    · next hw => exact ⟨rfl, masked_eq_formatEM_operand.2 ⟨h, he, hw, rfl, hm, rfl⟩⟩
    · next hw => exact ⟨rfl, masked_eq_formatEM_plain.2 ⟨h, he, Bool.eq_false_iff.2 hw, rfl, hm⟩⟩
  · simp [decodeIndirect_of_reserved hm] at hd

/-- The words of LOAD and STORE use all their bits, the base register's among them (R89). -/
theorem eq_formatM_decodeBase {op : BitVec 3} (h : field w 13 3 = op) :
    w = formatM op (evenOffset w) (encodeBase (decodeBase (w.getLsbD 0))) :=
  (eq_formatM (evenOffset_even w)).2 ⟨h, rfl, (encodeBase_decodeBase _).symm⟩

/-- The words with an EXT operand of ten bits use all their bits (R96). -/
theorem spells_formatE {ext : BitVec 3} (h : field w 13 3 = 7#3) (he : field w 10 3 = ext) (hu : i.unusedBits = 0#16)
    (hi : encode i = formatE ext (field w 0 10)) : Spells w i := by
  rw [spells_iff_eq hu, hi]
  exact eq_formatE.2 ⟨h, he, rfl⟩

theorem spells_of_decodeMachine (hd : decodeMachine w = .ok i) : i.machine = i ∧ Spells w i := by
  have of_ok {j : Instr} (hj : decodeMachine w = .ok j) (hs : j.machine = j ∧ Spells w j) :
      i.machine = i ∧ Spells w i := by
    cases hj.symm.trans hd
    exact hs
  rcases bitVec3_cases (field w 13 3) with h | h | h | h | h | h | h | h
  · exact of_ok (decodeMachine_branch h) ⟨rfl, (spells_iff_eq rfl).2 (eq_append13.2 ⟨h, rfl⟩)⟩
  · exact spells_of_decodeAlu h (decodeMachine_alu h ▸ hd)
  · exact of_ok (decodeMachine_store h) ⟨rfl, (spells_iff_eq rfl).2 (eq_formatM_decodeBase h)⟩
  · exact spells_of_decodeXfer h (decodeMachine_xfer h ▸ hd)
  · exact of_ok (decodeMachine_load h) ⟨rfl, (spells_iff_eq rfl).2 (eq_formatM_decodeBase h)⟩
  · exact of_ok (decodeMachine_cbranch h)
      ⟨rfl, (spells_iff_eq rfl).2 ((eq_formatM (evenOffset_even w)).2 ⟨h, rfl, rfl⟩)⟩
  · exact of_ok (decodeMachine_loadc h) ⟨rfl, (spells_iff_eq rfl).2 (eq_append13.2 ⟨h, rfl⟩)⟩
  · rcases bitVec3_cases (field w 10 3) with he | he | he | he | he | he | he | he
    · exact spells_of_decodeRegister h he (decodeMachine_register h he ▸ hd)
    · exact spells_of_decodeIndirect h he (decodeMachine_indirect h he ▸ hd)
    · exact of_ok (decodeMachine_reservedExt010 h he) ⟨rfl, spells_formatE h he rfl rfl⟩
    · exact of_ok (decodeMachine_fpadj h he) ⟨rfl, spells_formatE h he rfl rfl⟩
    · exact of_ok (decodeMachine_reservedExt100 h he) ⟨rfl, spells_formatE h he rfl rfl⟩
    · exact of_ok (decodeMachine_loadrel h he) ⟨rfl, spells_formatE h he rfl rfl⟩
    · exact of_ok (decodeMachine_reservedExt110 h he) ⟨rfl, spells_formatE h he rfl rfl⟩
    · exact of_ok (decodeMachine_reservedExt111 h he) ⟨rfl, spells_formatE h he rfl rfl⟩

end

/-! ## The words of an instruction decode to it -/

section
variable {w : Ins} {i : Instr} {op : BitVec 4} {x2y : Bool} {m : StackMove}

theorem not_badSelector {op k : BitVec 4} (hop : op ≠ 6#4 ∧ op ≠ 12#4) : ¬ BadSelector op k :=
  fun hb => hb.1.elim hop.1 hop.2

/-- A word of format A decodes to the function with its number, where that function's own operand is the word's. -/
theorem decodeMachine_of_fieldsA (h : field w 13 3 = 1#3) (hop : field w 9 4 = op) (hx : w.getLsbD 6 = x2y)
    (hm : field w 4 2 = encodeMove m) (hb : ¬ BadSelector op (field w 0 4))
    (hi : aluInstr op (w.getLsbD 7) x2y m (field w 0 4) = i) : decodeMachine w = .ok i := by
  subst hop hx hi
  rw [decodeMachine_alu h, decodeAlu_eq_ok hm hb]

theorem decodeMachine_of_plain (hw : w &&& ~~~0x018F#16 = formatA op false x2y m 0#4) (hop : op ≠ 6#4 ∧ op ≠ 12#4)
    (hi : ∀ xt k, aluInstr op xt x2y m k = i) : decodeMachine w = .ok i := by
  obtain ⟨h, ho, hx, hm⟩ := masked_eq_formatA_plain.1 hw
  exact decodeMachine_of_fieldsA h ho hx hm (not_badSelector hop) (hi _ _)

theorem decodeMachine_of_operand {k : BitVec 4} (hw : w &&& ~~~0x0180#16 = formatA op false x2y m k)
    (hb : ¬ BadSelector op k) (hi : ∀ xt, aluInstr op xt x2y m k = i) : decodeMachine w = .ok i := by
  obtain ⟨h, ho, hx, hm, rfl⟩ := masked_eq_formatA_operand.1 hw
  exact decodeMachine_of_fieldsA h ho hx hm hb (hi _)

theorem not_badSelector_encodeSelector (op : BitVec 4) (sel : Selector) : ¬ BadSelector op (encodeSelector sel) :=
  fun hb => Bool.eq_false_iff.1 (encodeSelector_bit3 sel) hb.2

theorem decodeMachine_of_formatE {ext : BitVec 3} {operand : BitVec 10} (make : BitVec 10 → Instr)
    (hw : w = formatE ext operand)
    (hd : field w 13 3 = 7#3 → field w 10 3 = ext → decodeMachine w = .ok (make (field w 0 10))) :
    decodeMachine w = .ok (make operand) := by
  obtain ⟨h, he, rfl⟩ := eq_formatE.1 hw
  exact hd h he

/-- The words of a machine instruction decode to it, constructor by constructor. -/
theorem decodeMachine_of_spells (henc : i.encodable = true) (hi : i.machine = i) (hw : Spells w i) :
    decodeMachine w = .ok i := by
  cases i with
  | branch =>
    obtain ⟨h, rfl⟩ := eq_append13.1 ((spells_iff_eq rfl).1 hw)
    exact decodeMachine_branch h
  | loadc =>
    obtain ⟨h, rfl⟩ := eq_append13.1 ((spells_iff_eq rfl).1 hw)
    exact decodeMachine_loadc h
  | add | sub | not | and | or | xor | y | bplc | brot | bsel =>
    exact decodeMachine_of_plain hw (by decide) fun _ _ => rfl
  | shl | inc | dec => exact decodeMachine_of_operand hw (not_badSelector (by decide)) fun _ => rfl
  | cmp m x2y sel =>
    refine decodeMachine_of_operand hw (not_badSelector_encodeSelector _ sel) fun _ => ?_
    exact congrArg (Instr.cmp m x2y) (selectorBits_encodeSelector sel)
  | cmpu m x2y sel =>
    refine decodeMachine_of_operand hw (not_badSelector_encodeSelector _ sel) fun _ => ?_
    exact congrArg (Instr.cmpu m x2y) (selectorBits_encodeSelector sel)
  | shr =>
    obtain ⟨h, hop, rfl, hx, hm⟩ := masked_eq_formatA_xt.1 hw
    exact decodeMachine_of_fieldsA h hop hx hm (not_badSelector (by decide)) rfl
  | store off b =>
    obtain ⟨h, rfl, hb⟩ := (eq_formatM (by simpa [Instr.encodable] using henc)).1 ((spells_iff_eq rfl).1 hw)
    rw [decodeMachine_store h, hb, decodeBase_encodeBase]
  | load off b =>
    obtain ⟨h, rfl, hb⟩ := (eq_formatM (by simpa [Instr.encodable] using henc)).1 ((spells_iff_eq rfl).1 hw)
    rw [decodeMachine_load h, hb, decodeBase_encodeBase]
  | cbranch off n =>
    obtain ⟨h, rfl, rfl⟩ := (eq_formatM (by simpa [Instr.encodable] using henc)).1 ((spells_iff_eq rfl).1 hw)
    exact decodeMachine_cbranch h
  | xfer rs r2p p2r m x2p =>
    obtain ⟨h, hrs, rfl, rfl, hm, rfl⟩ := masked_eq_formatX.1 hw
    rw [decodeMachine_xfer h, decodeXfer_eq hrs hm, if_neg]
    simpa [Instr.encodable, imp_iff_not_or] using henc
  | loadreg | storereg =>
    obtain ⟨h, he, hwr, hr⟩ := masked_eq_formatER.1 hw
    rw [decodeMachine_register h he, decodeRegister_eq hr, hwr]
    rfl
  | loadi =>
    obtain ⟨h, he, hwr, rfl, hm⟩ := masked_eq_formatEM_plain.1 hw
    rw [decodeMachine_indirect h he, decodeIndirect_eq hm, hwr]
    rfl
  | storei =>
    obtain ⟨h, he, hwr, rfl, hm, rfl⟩ := masked_eq_formatEM_operand.1 hw
    rw [decodeMachine_indirect h he, decodeIndirect_eq hm, hwr]
    rfl
  | fpadj => exact decodeMachine_of_formatE .fpadj ((spells_iff_eq rfl).1 hw) decodeMachine_fpadj
  | loadrel => exact decodeMachine_of_formatE .loadrel ((spells_iff_eq rfl).1 hw) decodeMachine_loadrel
  | reservedExt010 =>
    exact decodeMachine_of_formatE .reservedExt010 ((spells_iff_eq rfl).1 hw) decodeMachine_reservedExt010
  | reservedExt100 =>
    exact decodeMachine_of_formatE .reservedExt100 ((spells_iff_eq rfl).1 hw) decodeMachine_reservedExt100
  | reservedExt110 =>
    exact decodeMachine_of_formatE .reservedExt110 ((spells_iff_eq rfl).1 hw) decodeMachine_reservedExt110
  | reservedExt111 =>
    exact decodeMachine_of_formatE .reservedExt111 ((spells_iff_eq rfl).1 hw) decodeMachine_reservedExt111
  | _ => cases hi -- a name of R104, or LOADCP, is no machine instruction

end

/-! ## The rule -/

/-- The decoder's spelling is the name R104 gives the machine instruction. -/
theorem canonical_iff {i : Instr} : i.canonical = true ↔ i.machine.named = i :=
  beq_iff_eq

theorem decode_eq_ok_iff_machine {w : Ins} {i : Instr} :
    decode w = .ok i ↔ ∃ j, decodeMachine w = .ok j ∧ j.named = i := by
  rcases hd : decodeMachine w <;> simp [decode, hd]

/-- A word decodes to an instruction exactly where the instruction is one the encoding admits, under the name of R104 it
has, and the word is its canonical word but for unused bits (R97, R107). -/
theorem decode_eq_ok_iff {w : Ins} {i : Instr} :
    decode w = .ok i ↔ i.encodable = true ∧ i.canonical = true ∧ Spells w i := by
  constructor
  · intro h
    obtain ⟨j, hj, rfl⟩ := decode_eq_ok_iff_machine.1 h
    obtain ⟨hm, hw⟩ := spells_of_decodeMachine hj
    exact ⟨encodable_of_decode h, canonical_iff.2 (by rw [machine_named, hm]), spells_named.2 hw⟩
  · rintro ⟨henc, hcan, hw⟩
    have hname := canonical_iff.1 hcan
    have henc' : i.machine.encodable = true := by rw [← encodable_named, hname, henc]
    exact decode_eq_ok_iff_machine.2
      ⟨_, decodeMachine_of_spells henc' (machine_machine i) (spells_machine.2 hw), hname⟩

/-- The encoder agrees with the opcode table on every instruction. -/
theorem opcodeRow (i : Instr) : OpcodeRow.Statement i := by
  cases i
  exacts [OpcodeRow.branch _, OpcodeRow.add _ _, OpcodeRow.sub _ _, OpcodeRow.not _ _, OpcodeRow.and _ _,
    OpcodeRow.or _ _, OpcodeRow.xor _ _, OpcodeRow.cmp _ _ _, OpcodeRow.y _ _, OpcodeRow.shr _ _ _,
    OpcodeRow.shl _ _ _, OpcodeRow.inc _ _ _, OpcodeRow.dec _ _ _, OpcodeRow.cmpu _ _ _, OpcodeRow.bplc _ _,
    OpcodeRow.brot _ _, OpcodeRow.bsel _ _, OpcodeRow.store _ _, OpcodeRow.xfer _ _ _ _ _, OpcodeRow.load _ _,
    OpcodeRow.cbranch _ _, OpcodeRow.loadc _, OpcodeRow.loadreg _, OpcodeRow.storereg _, OpcodeRow.loadi _ _,
    OpcodeRow.storei _ _ _, OpcodeRow.fpadj _, OpcodeRow.loadrel _, OpcodeRow.reservedExt010 _,
    OpcodeRow.reservedExt100 _, OpcodeRow.reservedExt110 _, OpcodeRow.reservedExt111 _, OpcodeRow.drop,
    OpcodeRow.swap, OpcodeRow.over, OpcodeRow.dup, OpcodeRow.nip, OpcodeRow.jump, OpcodeRow.call, OpcodeRow.ret,
    OpcodeRow.loadcp _]

/-- The canonical word has the unused bits 0 (R97). -/
theorem spells_encode (i : Instr) : Spells (encode i) i := by
  obtain ⟨-, hunused⟩ := opcodeRow i
  have hsplit : encode i &&& i.unusedBits ||| encode i &&& ~~~i.unusedBits = encode i := by
    rw [← BitVec.and_or_distrib_left, BitVec.or_not_self, BitVec.and_allOnes]
  rwa [hunused, BitVec.zero_or] at hsplit

/-- Settles O2: the canonical word of an instruction is one of its words. -/
theorem decodeInvertsEncode : Obligations.DecodeInvertsEncode := by
  intro i henc hcan
  exact decode_eq_ok_iff.2 ⟨henc, hcan, spells_encode i⟩

/-- Settles O5: whether a word decodes to an instruction depends only on the bits that instruction uses. -/
theorem unusedBitsAreIgnored : Obligations.UnusedBitsAreIgnored := by
  intro w i hd
  obtain ⟨henc, hcan, hw⟩ := decode_eq_ok_iff.1 hd
  exact ⟨hw.symm, fun v hv => decode_eq_ok_iff.2 ⟨henc, hcan, hv.trans hw⟩⟩

/-! ## The words of formats A, X, ER and EM, whatever their unused bits -/

theorem moveBits_eq (m : StackMove) : moveBits m = encodeMove m := by
  cases m <;> rfl

theorem decode_of_ok {w : Ins} {i : Instr} (h : decodeMachine w = .ok i) : decode w = .ok i.named :=
  decode_eq_ok_iff_machine.2 ⟨i, h, rfl⟩

theorem decode_of_error {w : Ins} {e : DecodeError} (h : decodeMachine w = .error e) : decode w = .error e := by
  rw [decode, h]

section
variable (op k : BitVec 4) (u : BitVec 1) (xt x2y : Bool) (m : StackMove)

theorem layoutA_reads :
    let w := layoutA op u xt x2y (encodeMove m) k
    decodeMachine w = decodeAlu w ∧ field w 9 4 = op ∧ w.getLsbD 7 = xt ∧ w.getLsbD 6 = x2y ∧
      field w 4 2 = encodeMove m ∧ field w 0 4 = k := by
  obtain ⟨h, hop, -, hxt, hx, hm, hk⟩ := layoutA_fields op u xt x2y (encodeMove m) k
  rw [field_one, BitVec.ofBool_eq_iff_eq] at hxt hx
  exact ⟨decodeMachine_alu h, hop, hxt, hx, hm, hk⟩

theorem decode_layoutA_of_badSelector (hb : BadSelector op k) :
    decode (layoutA op u xt x2y (encodeMove m) k) = .error .reservedSelector := by
  obtain ⟨hd, hop, -, -, hm, hk⟩ := layoutA_reads op k u xt x2y m
  exact decode_of_error (hd.trans (decodeAlu_of_badSelector hm (by rwa [hop, hk])))

theorem decode_layoutA (hb : ¬ BadSelector op k) :
    decode (layoutA op u xt x2y (encodeMove m) k) = .ok (aluInstr op xt x2y m k).named := by
  obtain ⟨hd, hop, hxt, hx, hm, hk⟩ := layoutA_reads op k u xt x2y m
  have hok := decodeAlu_eq_ok hm (by rwa [hop, hk])
  rw [hop, hxt, hx, hk] at hok
  exact decode_of_ok (hd.trans hok)

end

/-- Settles O10: the function at the number `aluop` is `aluInstr`, its reserved selectors are `BadSelector`. -/
theorem aluFormat : Obligations.AluFormat := by
  rintro op k u xt x2y m sel i rfl hi
  obtain ⟨_, rfl⟩ := List.getElem?_eq_some_iff.1 hi
  rw [moveBits_eq]
  exact ⟨decode_layoutA_of_badSelector op k u xt x2y m, decode_layoutA op k u xt x2y m⟩

theorem decode_layoutX (u v : BitVec 3) (rs m : StackMove) (r2p p2r x2p : Bool) :
    decode (layoutX u (encodeMove rs) r2p p2r (encodeMove m) v x2p) =
      if m = .s1 ∨ (r2p = true ∧ x2p = true) then .error .reservedTransfer
      else .ok (Instr.xfer rs r2p p2r m x2p).named := by
  obtain ⟨h, -, hrs, hr, hp, hm, -, hx⟩ := layoutX_fields u (encodeMove rs) r2p p2r (encodeMove m) v x2p
  rw [field_one, BitVec.ofBool_eq_iff_eq] at hr hp hx
  have hd := (decodeMachine_xfer h).trans (decodeXfer_eq hrs hm)
  rw [hr, hp, hx] at hd
  split
  · next hc => exact decode_of_error (hd.trans (if_pos hc))
  · next hc => exact decode_of_ok (hd.trans (if_neg hc))

theorem decode_layoutER (write : Bool) (u : BitVec 5) (reg : BitVec 4) :
    decode (layoutER write u reg) =
      if reg = 0#4 then .ok (if write then .storereg .fp else .loadreg .fp)
      else if reg = 1#4 then .ok (if write then .storereg .bp else .loadreg .bp)
      else if reg = 2#4 then .ok (if write then .storereg .rp else .loadreg .rp)
      else .error .reservedRegister := by
  obtain ⟨h, he, hwr, -, hreg⟩ := layoutER_fields write u reg
  rw [field_one, BitVec.ofBool_eq_iff_eq] at hwr
  obtain ⟨r, rfl⟩ | ⟨hlt, hnone⟩ := regField_cases reg
  · have hd := (decodeMachine_register h he).trans (decodeRegister_eq hreg)
    rw [hwr] at hd
    cases r <;> cases write <;> exact decode_of_ok hd
  · have hd : decodeRegister (layoutER write u reg) = .error .reservedRegister := by
      simp [decodeRegister, hreg, hnone]
    have hne (n : Nat) (hn : n ≤ 2) : reg ≠ BitVec.ofNat 4 n := by
      rintro rfl
      rw [BitVec.toNat_ofNat] at hlt
      omega
    rw [if_neg (hne 0 (by decide)), if_neg (hne 1 (by decide)), if_neg (hne 2 (by decide))]
    exact decode_of_error ((decodeMachine_register h he).trans hd)

theorem decode_layoutEM (write : Bool) (u : BitVec 2) (x2y : Bool) (m : StackMove) (k : BitVec 4) :
    decode (layoutEM write u x2y (encodeMove m) k) = .ok (if write then .storei m x2y k else .loadi m x2y) := by
  obtain ⟨h, he, hwr, -, hx, hm, hk⟩ := layoutEM_fields write u x2y (encodeMove m) k
  rw [field_one, BitVec.ofBool_eq_iff_eq] at hwr hx
  have hd := (decodeMachine_indirect h he).trans (decodeIndirect_eq hm)
  rw [hwr, hx, hk] at hd
  cases write <;> exact decode_of_ok hd

/-- Settles O11. -/
theorem transferRegisterAndIndirectFormats : Obligations.TransferRegisterAndIndirectFormats := by
  refine ⟨fun u v rs m r2p p2r x2p => ?_, fun u reg => ⟨?_, ?_⟩, fun u x2y m k => ?_⟩
  · rw [moveBits_eq, moveBits_eq]
    have hd := decode_layoutX u v rs m r2p p2r x2p
    refine ⟨fun ⟨hm, hc⟩ => hd.trans (if_neg ?_), fun hc => hd.trans (if_pos hc)⟩
    rintro (rfl | ⟨rfl, rfl⟩)
    · exact hm rfl
    · simp at hc
  · exact decode_layoutER false u reg
  · exact decode_layoutER true u reg
  · rw [moveBits_eq]
    exact ⟨decode_layoutEM false u x2y m k, decode_layoutEM true u x2y m k⟩

/-! ## The words of the other formats, and the ranges of their numbers -/

/-- Settles O1, word by word. -/
theorem handEncodedWordsDecode : Obligations.HandEncodedWordsDecode :=
  ⟨rfl, rfl, rfl, rfl, rfl, rfl, rfl, rfl, rfl, rfl⟩

/-- Both names of an instruction run alike, case by case. -/
theorem exec_machine (i : Instr) (s : State) : exec i s = exec i.machine s := by
  cases i <;> rfl

/-- Settles O3. -/
theorem aliasesRunAsTheirMachineInstruction : Obligations.AliasesRunAsTheirMachineInstruction :=
  ⟨fun i => ⟨(encode_machine i).symm, exec_machine i⟩, machine_named,
    fun _ => ⟨rfl, rfl, rfl, rfl, rfl, rfl, rfl, rfl, rfl⟩⟩

theorem toInt_range13 (c : BitVec 13) : -4096 ≤ c.toInt ∧ c.toInt ≤ 4095 := by
  have hlo := BitVec.le_toInt c
  have hhi := BitVec.toInt_lt (x := c)
  omega

/-- An offset with bit 0 clear is an even number. -/
theorem toInt_even {off : BitVec 13} (h : off.getLsbD 0 = false) : off.toInt % 2 = 0 := by
  have hnat : off.toNat % 2 = 0 := by simpa [BitVec.getLsbD, Nat.testBit_zero] using h
  rw [BitVec.toInt_eq_toNat_cond]
  split <;> omega

theorem wellFormed_branch (off : BitVec 13) : (Instr.branch off).wellFormed = true ↔ off.getLsbD 0 = false := by
  rw [Instr.wellFormed, Bool.not_eq_true']

/-- Settles O6. -/
theorem branchFormat : Obligations.BranchFormat := by
  intro off
  obtain ⟨hlo, hhi⟩ := toInt_range13 off
  refine ⟨decode_branch off, rfl, sext13_toInt off, hlo, hhi, wellFormed_branch off, fun hwf => ?_⟩
  have heven := toInt_even ((wellFormed_branch off).1 hwf)
  omega

/-- Settles O8. -/
theorem loadcFormat : Obligations.LoadcFormat := fun c =>
  ⟨decode_loadc c, rfl, sext13_toInt c, toInt_range13 c⟩

theorem decode_fpadj (c : BitVec 10) : decode (formatE 0b011#3 c) = .ok (.fpadj c) :=
  decodeInvertsEncode (.fpadj c) rfl (canonical_iff.2 rfl)

theorem decode_loadrel (c : BitVec 10) : decode (formatE 0b101#3 c) = .ok (.loadrel c) :=
  decodeInvertsEncode (.loadrel c) rfl (canonical_iff.2 rfl)

/-- Settles O9. -/
theorem tenBitFormats : Obligations.TenBitFormats := by
  intro c
  have hlo := BitVec.le_toInt c
  have hhi := BitVec.toInt_lt (x := c)
  have hnat := c.isLt
  exact ⟨decode_fpadj c, rfl, decode_loadrel c, rfl, sext10_toInt c, by omega, by omega, zext10_toNat c, by omega,
    by omega⟩

/-- The offset with bits 12 to 1 given and bit 0 clear. -/
theorem getLsbD_zero_append_zero (off : BitVec 12) : (off ++ 0#1).getLsbD 0 = false := by
  rw [BitVec.getLsbD_append]
  rfl

theorem formatM_append_zero (op : BitVec 3) (off : BitVec 12) (b : Bool) :
    formatM op (off ++ 0#1) b = op ++ off ++ BitVec.ofBool b := by
  rw [formatM, BitVec.extractLsb'_append_eq_left]

theorem encodeBase_ite (b : Bool) : encodeBase (if b then .bp else .fp) = b := by
  cases b <;> rfl

/-- Settles O7: the words are those of the encoder, which decode. -/
theorem evenOffsetFormats : Obligations.EvenOffsetFormats := by
  intro off b
  have heven := getLsbD_zero_append_zero off
  have hstore : encode (.store (off ++ 0#1) (if b then .bp else .fp)) = 0b010#3 ++ off ++ BitVec.ofBool b := by
    rw [encode, encodeBase_ite, formatM_append_zero]
  have hload : encode (.load (off ++ 0#1) (if b then .bp else .fp)) = 0b100#3 ++ off ++ BitVec.ofBool b := by
    rw [encode, encodeBase_ite, formatM_append_zero]
  have hcb : encode (.cbranch (off ++ 0#1) b) = 0b101#3 ++ off ++ BitVec.ofBool b :=
    formatM_append_zero _ off b
  have hnat : (zext13 (off ++ 0#1)).toNat = 2 * off.toNat := by
    rw [zext13_toNat, BitVec.toNat_append]
    simp [Nat.shiftLeft_eq, Nat.mul_comm]
  have hint : (sext13 (off ++ 0#1)).toInt = 2 * off.toInt := by
    rw [sext13_toInt, BitVec.toInt_append_zero, pow_one]
  have hlt := off.isLt
  have hlo := BitVec.le_toInt off
  have hhi := BitVec.toInt_lt (x := off)
  refine ⟨⟨?_, ?_, hstore, hload, hnat, by omega⟩, ?_, hcb, hint, by omega, by omega⟩
  · rw [← hstore]
    exact decodeInvertsEncode _ (by rw [Instr.encodable, heven]; rfl) (canonical_iff.2 rfl)
  · rw [← hload]
    exact decodeInvertsEncode _ (by rw [Instr.encodable, heven]; rfl) (canonical_iff.2 rfl)
  · rw [← hcb]
    exact decodeInvertsEncode _ (by rw [Instr.encodable, heven]; rfl) (canonical_iff.2 rfl)

end Sys2Proof.Proofs.Encoding
end

section
/-! PROOFS. The reserved words: which stops an instruction has, that none is a refusal, and that `ReservedEncoding` stops
a step exactly at the words of R98. -/

namespace Sys2Proof.Proofs.Reserved

open Sys2Proof.Machine Sys2Proof.Claims Sys2Proof.Proofs.Scope Sys2Proof.Proofs.Effects Sys2Proof.Proofs.PerInstruction
  Sys2Proof.Proofs.Encoding

/-! ## What an instruction can answer -/

/-- The reserved EXT classes, the instructions without a meaning (R98 (a)). -/
def isReservedExt : Instr → Bool
  | .reservedExt010 _ | .reservedExt100 _ | .reservedExt110 _ | .reservedExt111 _ => true
  | _ => false

/-- The outcomes of `i` in `s`: a next state, a fault that is no `ReservedEncoding`, or the stop of a reserved word,
which only a term that is reserved or has no encoding can give. `exec_answers` ties it to `exec`. -/
inductive Answers (i : Instr) (s : State) : Result → Prop
  | next (t : State) : Answers i s (.next t)
  | fault (f : Fault) (hf : ∀ w pc, f ≠ .reservedEncoding w pc) : Answers i s (.fault f)
  | reserved (hi : isReservedExt i = true ∨ i.encodable = false) : Answers i s (reservedWord (encode i) s)

section
variable {i : Instr} {s : State} {m : StackMove}

theorem moveFault_ne_reserved {f : Fault} (h : s.moveFault m = some f) (w : Ins) (pc : Word) :
    f ≠ .reservedEncoding w pc := by
  rintro rfl
  cases m <;> simp [State.moveFault] at h

theorem answers_moveFault {f : Fault} (h : s.moveFault m = some f) : Answers i s (.fault f) :=
  .fault f (moveFault_ne_reserved h)

theorem answers_memRead {a : Word} {f : Fault} (h : s.memRead a = .error f) : Answers i s (.fault f) := by
  obtain ⟨-, rfl⟩ := State.memRead_eq_error.1 h
  exact .fault _ nofun

theorem answers_memWrite {a v : Word} {f : Fault} (h : s.memWrite a v = .error f) : Answers i s (.fault f) := by
  obtain ⟨-, rfl⟩ := State.memWrite_eq_error.1 h
  exact .fault _ nofun

theorem answers_transfer (u : State) (target : Word) : Answers i s (u.transfer target) := by
  unfold State.transfer
  split
  · exact .fault _ nofun
  · exact .next _

theorem answers_pushNext (v : Word) : Answers i s (s.pushNext v) := by
  unfold State.pushNext
  split
  · exact answers_moveFault ‹_›
  · exact .next _

theorem answers_runAlu (f : Word → Word → Word) (x2y : Bool) : Answers i s (runAlu f m x2y s) := by
  unfold runAlu
  split
  · exact answers_moveFault ‹_›
  · exact .next _

theorem answers_loadAndPush (a : Word) : Answers i s (loadAndPush a s) := by
  unfold loadAndPush
  split
  · exact answers_moveFault ‹_›
  · split
    · exact answers_memRead ‹_›
    · exact .next _

theorem answers_execStore (off : BitVec 13) (b : Base) : Answers i s (execStore off b s) := by
  unfold execStore
  split
  · exact answers_moveFault ‹_›
  · split
    · exact answers_memWrite ‹_›
    · exact .next _

theorem answers_execLoadi (x2y : Bool) : Answers i s (execLoadi m x2y s) := by
  unfold execLoadi
  split
  · exact answers_moveFault ‹_›
  · split
    · exact answers_memRead ‹_›
    · exact .next _

theorem answers_execStorei (x2y : Bool) (k : BitVec 4) : Answers i s (execStorei m x2y k s) := by
  unfold execStorei
  split
  · exact answers_moveFault ‹_›
  · split
    · exact answers_memWrite ‹_›
    · exact .next _

theorem answers_execCbranch (off : BitVec 13) (n : Bool) : Answers i s (execCbranch off n s) := by
  unfold execCbranch
  split
  · exact answers_moveFault ‹_›
  · exact .next _

theorem answers_execStorereg (r : Reg) : Answers i s (execStorereg r s) := by
  unfold execStorereg
  split
  · exact answers_moveFault ‹_›
  · exact .next _

theorem answers_returnTarget {rs : StackMove} {r2p : Bool} {f : Fault} (h : s.returnTarget rs r2p = .error f) :
    Answers i s (.fault f) := by
  cases r2p with
  | false => cases h
  | true => exact answers_memRead h

theorem answers_saveReturn {rs : StackMove} {p2r : Bool} {f : Fault} (h : s.saveReturn rs p2r = .error f) :
    Answers i s (.fault f) := by
  cases p2r with
  | false => cases h
  | true => exact answers_memWrite h

/-- XFER stops as a reserved word only for the field combinations of R98 (b), (c), which are not encodable. -/
theorem answers_runXfer {rs : StackMove} {r2p p2r x2p : Bool} (hi : i.machine = .xfer rs r2p p2r m x2p)
    (henc : i.encodable = (Instr.xfer rs r2p p2r m x2p).encodable) : Answers i s (runXfer rs r2p p2r m x2p s) := by
  unfold runXfer
  split
  · next hc =>
    rw [← hi, encode_machine]
    refine .reserved (.inr ?_)
    rw [henc, Instr.encodable]
    simpa [or_iff_not_imp_left] using hc
  · split
    · exact answers_moveFault ‹_›
    · split
      · exact answers_returnTarget ‹_›
      · split
        · exact answers_saveReturn ‹_›
        · exact answers_transfer ..

end

/-- One case per shared operation of the meanings. -/
theorem exec_answers (i : Instr) (s : State) : Answers i s (exec i s) := by
  cases i with
  | add | sub | not | and | or | xor | cmp | y | shr | shl | inc | dec | cmpu | bplc | brot | bsel =>
    simp only [exec_add, exec_sub, exec_not, exec_and, exec_or, exec_xor, exec_cmp, exec_y, exec_shr, exec_shl,
      exec_inc, exec_dec, exec_cmpu, exec_bplc, exec_brot, exec_bsel]
    exact answers_runAlu ..
  | drop | swap | dup | nip =>
    simp only [exec_drop, exec_swap, exec_dup, exec_nip]
    exact answers_runAlu ..
  | xfer | jump | call | ret =>
    simp only [exec_xfer, exec_jump, exec_call, exec_ret]
    exact answers_runXfer rfl rfl
  | load | loadrel | loadcp => exact answers_loadAndPush _
  | loadc | loadreg => exact answers_pushNext _
  | branch => exact answers_transfer ..
  | cbranch => exact answers_execCbranch ..
  | loadi => exact answers_execLoadi _
  | store => exact answers_execStore ..
  | storei => exact answers_execStorei ..
  | storereg => exact answers_execStorereg _
  | fpadj => exact .next _
  | reservedExt010 | reservedExt100 | reservedExt110 | reservedExt111 => exact .reserved (.inl rfl)
  | _ => -- OVER, which is a token of Lean
    rw [exec_over]
    exact answers_runAlu ..

/-! ## Nothing is refused -/

theorem exec_ne_refused (i : Instr) (s : State) (r : Refusal) : exec i s ≠ .refused r := by
  intro h
  have ha := exec_answers i s
  rw [h] at ha
  cases ha

/-- Settles O17: a step is a stop of its own or the meaning of an instruction. -/
theorem nothingIsRefused : Obligations.NothingIsRefused := by
  refine fun s r => ⟨fun h => ?_, fun i => exec_ne_refused i s r⟩
  unfold step at h
  split at h
  · cases h
  · split at h
    · cases h
    · exact exec_ne_refused _ s r h

/-! ## The reserved EXT classes -/

theorem exec_of_isReservedExt {i : Instr} (hi : isReservedExt i = true) (s : State) :
    exec i s = .fault (.reservedEncoding (encode i) s.pc) := by
  cases i with
  | reservedExt010 | reservedExt100 | reservedExt110 | reservedExt111 => rfl
  | _ => cases hi

/-- Settles O58. -/
theorem reservedExtStops : Obligations.ReservedExtStops := fun s _ =>
  ⟨exec_of_isReservedExt rfl s, exec_of_isReservedExt rfl s, exec_of_isReservedExt rfl s, exec_of_isReservedExt rfl s⟩

/-- An encodable instruction stops as a reserved word only if it is one. -/
theorem isReservedExt_of_exec {i : Instr} {s : State} {w : Ins} {pc : Word} (henc : i.encodable = true)
    (h : exec i s = .fault (.reservedEncoding w pc)) : isReservedExt i = true := by
  have ha := exec_answers i s
  rw [h] at ha
  cases ha with
  | fault _ hf => exact absurd rfl (hf w pc)
  | reserved hi => simpa [henc] using hi

/-! ## The words without a meaning -/

/-- The decoder's answer gives no meaning: it is a reserved encoding or a reserved EXT class. -/
def NoMeaning : Except DecodeError Instr → Prop
  | .error _ => True
  | .ok i => isReservedExt i = true

theorem noMeaning_ok {i : Instr} : NoMeaning (.ok i) ↔ isReservedExt i = true := Iff.rfl

theorem unusedBits_of_isReservedExt {i : Instr} (hi : isReservedExt i = true) : i.unusedBits = 0#16 := by
  cases i with
  | reservedExt010 | reservedExt100 | reservedExt110 | reservedExt111 => rfl
  | _ => cases hi

/-- A step that fetches a word stops there as reserved exactly where the word has no meaning. -/
theorem step_eq_reserved_iff {s : State} {w : Ins} (hf : s.fetch = .ok w) :
    step s = .fault (.reservedEncoding w s.pc) ↔ NoMeaning (decode w) := by
  cases hd : decode w with
  | error e => simp [step, hf, hd, NoMeaning]
  | ok i =>
    obtain ⟨henc, -, hw⟩ := decode_eq_ok_iff.1 hd
    rw [step_eq_exec hf hd, noMeaning_ok]
    refine ⟨isReservedExt_of_exec henc, fun hi => ?_⟩
    rw [exec_of_isReservedExt hi, (spells_iff_eq (unusedBits_of_isReservedExt hi)).1 hw]

theorem isReservedExt_named (i : Instr) : isReservedExt i.named = isReservedExt i := by
  unfold Instr.named
  split_ifs with h1 h2 h3 h4 h5 h6 h7 h8 <;> subst_vars <;> rfl

theorem noMeaning_decode (w : Ins) : NoMeaning (decode w) ↔ NoMeaning (decodeMachine w) := by
  cases hd : decodeMachine w with
  | error e => rw [decode_of_error hd]
  | ok i => rw [decode_of_ok hd, noMeaning_ok, noMeaning_ok, isReservedExt_named]

theorem isReservedExt_of_mem_aluInstrs {i : Instr} {m : StackMove} {x2y xt : Bool} {sel : Selector} {k : BitVec 4}
    (hi : i ∈ aluInstrs m x2y xt sel k) : isReservedExt i = false := by
  simp only [aluInstrs, List.mem_cons, List.not_mem_nil, or_false] at hi
  rcases hi with rfl | rfl | rfl | rfl | rfl | rfl | rfl | rfl | rfl | rfl | rfl | rfl | rfl | rfl | rfl | rfl <;> rfl

section
variable {w : Ins}

/-- R98 (b), (e). -/
theorem noMeaning_decodeAlu :
    NoMeaning (decodeAlu w) ↔ field w 4 2 = 2#2 ∨ BadSelector (field w 9 4) (field w 0 4) := by
  obtain ⟨m, hm⟩ | hm := moveField_cases (field w 4 2)
  · have hne : field w 4 2 ≠ 2#2 := hm ▸ encodeMove_ne_reserved m
    by_cases hb : BadSelector (field w 9 4) (field w 0 4)
    · simp [decodeAlu_of_badSelector hm hb, NoMeaning, hb]
    · simp [decodeAlu_eq_ok hm hb, NoMeaning, isReservedExt_of_mem_aluInstrs (mem_aluInstr ..), hne, hb]
  · simp [decodeAlu_of_reserved hm, NoMeaning, hm]

/-- R98 (b), (c). -/
theorem noMeaning_decodeXfer :
    NoMeaning (decodeXfer w) ↔
      (field w 4 2 = 2#2 ∨ field w 4 2 = 1#2 ∨ field w 8 2 = 2#2) ∨ w.getLsbD 7 = true ∧ w.getLsbD 0 = true := by
  obtain ⟨rs, hrs⟩ | hrs := moveField_cases (field w 8 2)
  · obtain ⟨m, hm⟩ | hm := moveField_cases (field w 4 2)
    · have hs1 : encodeMove m = 1#2 ↔ m = .s1 := by cases m <;> decide
      rw [decodeXfer_eq hrs hm, hrs, hm, hs1]
      split
      · next hc => simpa [NoMeaning, encodeMove_ne_reserved] using hc
      · next hc => simpa [NoMeaning, isReservedExt, encodeMove_ne_reserved] using hc
    · simp [decodeXfer_of_reserved (.inr hm), NoMeaning, hm]
  · simp [decodeXfer_of_reserved (.inl hrs), NoMeaning, hrs]

/-- R98 (d). -/
theorem noMeaning_decodeRegister : NoMeaning (decodeRegister w) ↔ 2 < (field w 0 4).toNat := by
  obtain ⟨r, hr⟩ | ⟨hlt, hr⟩ := regField_cases (field w 0 4)
  · have hle := encodeReg_le_two r
    rw [decodeRegister_eq hr, hr, noMeaning_ok]
    cases w.getLsbD 9 <;> simp [isReservedExt] <;> omega
  · simp [decodeRegister, hr, NoMeaning, hlt]

/-- R98 (b). -/
theorem noMeaning_decodeIndirect : NoMeaning (decodeIndirect w) ↔ field w 4 2 = 2#2 := by
  obtain ⟨m, hm⟩ | hm := moveField_cases (field w 4 2)
  · rw [decodeIndirect_eq hm, hm, noMeaning_ok]
    cases w.getLsbD 9 <;> simp [isReservedExt, encodeMove_ne_reserved]
  · simp [decodeIndirect_of_reserved hm, NoMeaning, hm]

theorem bitsOf_eq_iff {lo len n : Nat} (hn : n < 2 ^ len) :
    bitsOf w lo len = n ↔ field w lo len = BitVec.ofNat len n := by
  rw [← field_toNat, ← BitVec.toNat_inj, BitVec.toNat_ofNat, Nat.mod_eq_of_lt hn]

theorem bitsOf_one_iff {n : Nat} : bitsOf w n 1 = 1 ↔ w.getLsbD n = true := by
  rw [bitsOf_eq_iff (by decide), field_one]
  cases w.getLsbD n <;> decide

/-- The list of R98 in the fields the decoder reads. -/
theorem reservedWord_iff :
    ReservedWord w ↔
      (field w 13 3 = 7#3 ∧ (field w 10 3 = 2#3 ∨ field w 10 3 = 4#3 ∨ field w 10 3 = 6#3 ∨ field w 10 3 = 7#3)) ∨
      ((field w 13 3 = 1#3 ∨ (field w 13 3 = 7#3 ∧ field w 10 3 = 1#3)) ∧ field w 4 2 = 2#2) ∨
      (field w 13 3 = 3#3 ∧ (field w 4 2 = 2#2 ∨ field w 4 2 = 1#2 ∨ field w 8 2 = 2#2)) ∨
      (field w 13 3 = 3#3 ∧ w.getLsbD 7 = true ∧ w.getLsbD 0 = true) ∨
      (field w 13 3 = 7#3 ∧ field w 10 3 = 0#3 ∧ 2 < (field w 0 4).toNat) ∨
      (field w 13 3 = 1#3 ∧ BadSelector (field w 9 4) (field w 0 4)) := by
  rw [ReservedWord, BadSelector, getLsbD_field w 0 (by decide), field_toNat]
  simp only [bitsOf_one_iff]
  simp (disch := decide) only [bitsOf_eq_iff, Nat.zero_add]

/-- The words without a meaning are those of R98, opcode by opcode. -/
theorem noMeaning_decodeMachine : NoMeaning (decodeMachine w) ↔ ReservedWord w := by
  rw [reservedWord_iff]
  rcases bitVec3_cases (field w 13 3) with h | h | h | h | h | h | h | h
  · simp [decodeMachine_branch h, h, NoMeaning, isReservedExt]
  · simp [decodeMachine_alu h, h, noMeaning_decodeAlu]
  · simp [decodeMachine_store h, h, NoMeaning, isReservedExt]
  · simp [decodeMachine_xfer h, h, noMeaning_decodeXfer]
  · simp [decodeMachine_load h, h, NoMeaning, isReservedExt]
  · simp [decodeMachine_cbranch h, h, NoMeaning, isReservedExt]
  · simp [decodeMachine_loadc h, h, NoMeaning, isReservedExt]
  · rcases bitVec3_cases (field w 10 3) with he | he | he | he | he | he | he | he
    · simp [decodeMachine_register h he, h, he, noMeaning_decodeRegister]
    · simp [decodeMachine_indirect h he, h, he, noMeaning_decodeIndirect]
    · simp [decodeMachine_reservedExt010 h he, h, he, NoMeaning, isReservedExt]
    · simp [decodeMachine_fpadj h he, h, he, NoMeaning, isReservedExt]
    · simp [decodeMachine_reservedExt100 h he, h, he, NoMeaning, isReservedExt]
    · simp [decodeMachine_loadrel h he, h, he, NoMeaning, isReservedExt]
    · simp [decodeMachine_reservedExt110 h he, h, he, NoMeaning, isReservedExt]
    · simp [decodeMachine_reservedExt111 h he, h, he, NoMeaning, isReservedExt]

end

/-- Settles O4. -/
theorem reservedWordsAreExactlyR98 : Obligations.ReservedWordsAreExactlyR98 := fun s w hf =>
  calc
    step s = .fault (.reservedEncoding w s.pc) ↔ NoMeaning (decode w) := step_eq_reserved_iff hf
    _ ↔ NoMeaning (decodeMachine w) := noMeaning_decode w
    _ ↔ ReservedWord w := noMeaning_decodeMachine

end Sys2Proof.Proofs.Reserved
end

section
/-! PROOFS. CBRANCH, and the branch to itself that a run ends in. -/

namespace Sys2Proof.Proofs.Branch

open Sys2Proof.Machine Sys2Proof.Claims Sys2Proof.Proofs.Scope Sys2Proof.Proofs.AluResults
  Sys2Proof.Proofs.PerInstruction

/-! ## CBRANCH (R121) -/

/-- The two readings of N in R121. -/
theorem branchTaken_iff (n : Bool) (x : Word) :
    branchTaken n x = true ↔ (n = true ∧ x ≠ 0#32) ∨ (n = false ∧ x = 0#32) := by
  cases n <;> simp [branchTaken]

theorem nextPc_eq_word (s : State) : s.nextPc = word (s.pc.toNat + 2) :=
  (word_add_natCast s.pc 2).symm

theorem exec_cbranch_of_cons {s : State} {x : Word} {rest : List Word} (he : s.estack = x :: rest) (off : BitVec 13)
    (n : Bool) :
    exec (.cbranch off n) s =
      .next ((s.setStack rest).setPc (if branchTaken n x then s.branchTarget off else s.nextPc)) := by
  refine execCbranch_eq_next.2 ⟨moveFault_none_of_cons he nofun, ?_⟩
  rw [State.pop, he, State.x_cons he, List.tail_cons]

theorem execCbranch_of_moveFault {s : State} {e : Fault} (h : s.moveFault .sm1 = some e) (off : BitVec 13) (n : Bool) :
    execCbranch off n s = .fault e := by
  simp only [execCbranch, h]

/-- Settles O40. -/
theorem cbranchPopsAndTests : Obligations.CbranchPopsAndTests := by
  refine fun s off n => ⟨fun x rest he => ?_, fun he => execCbranch_of_moveFault (moveFault_of_empty he) off n⟩
  simp only [exec_cbranch_of_cons he, branchTaken_iff, branchTarget_eq, ← nextPc_eq_word]
  rfl

/-! ## BRANCH 0 (R240) -/

theorem branchTarget_zero (s : State) : s.branchTarget 0#13 = s.pc :=
  BitVec.add_zero s.pc

/-- From an even PC, a branch to the branch itself has no effect. -/
theorem exec_branch_zero {s : State} (he : s.pc.getLsbD 0 = false) : exec (.branch 0#13) s = .next s := by
  rw [exec_branch, branchTarget_zero, transfer_of_even he]

/-- Settles O18: a PC that fetches is even. -/
theorem branchZeroStandsStill : Obligations.BranchZeroStandsStill := by
  intro s hfinal
  obtain ⟨he, -⟩ := State.fetch_eq_ok.1 hfinal
  calc
    step s = exec (.branch 0#13) s := step_eq_exec hfinal (decode_branch 0#13)
    _ = .next s := exec_branch_zero he

end Sys2Proof.Proofs.Branch
end

section
/-! PROOFS. The stack aliases as R165 to R169 draw them: DROP, SWAP and OVER are settings of Y, DUP and NIP of an INC by 0. -/

namespace Sys2Proof.Proofs.StackAliases

open Sys2Proof.Machine Sys2Proof.Claims Sys2Proof.Proofs.Scope Sys2Proof.Proofs.AluResults
  Sys2Proof.Proofs.PerInstruction

/-- The INC of DUP and NIP keeps X. -/
theorem add_zext4_zero (x : Word) : x + zext4 0#4 = x :=
  BitVec.add_zero x

/-- The row S = +1, X2Y = 1 of R27 is a push, on every stack. -/
theorem updCells_s1_x2y (r u : Word) (e : List Word) : updCells r u .s1 true e = r :: e :=
  List.take_length (l := r :: e)

theorem endsWithStack_swap {s : State} {x y : Word} {rest : List Word} (he : s.estack = x :: y :: rest) :
    EndsWithStack .swap s (y :: x :: rest) := by
  obtain ⟨_, rfl, h⟩ := endsWithUpd_of_runAlu (exec_swap s) he nofun
  exact h

theorem endsWithStack_nip {s : State} {x y : Word} {rest : List Word} (he : s.estack = x :: y :: rest) :
    EndsWithStack .nip s (x :: rest) := by
  obtain ⟨_, rfl, h⟩ := endsWithUpd_of_runAlu (exec_nip s) he nofun
  rwa [add_zext4_zero] at h

theorem endsWithStack_nip_single {s : State} {x : Word} (he : s.estack = [x]) : EndsWithStack .nip s [] := by
  obtain ⟨_, rfl, h⟩ := endsWithRowOne_of_runAlu (exec_nip s) he nofun
  exact h

theorem endsWithStack_dup {s : State} {x : Word} {rest : List Word} (he : s.estack = x :: rest) (hr : HasRoom s .s1) :
    EndsWithStack .dup s (x :: x :: rest) := by
  have h := endsWithStack_of_runAlu (exec_dup s) (moveFault_none_of_cons he hr)
  rwa [updCells_s1_x2y, add_zext4_zero, State.x_cons he, he] at h

/-- Settles O36, alias by alias; OVER is O38. -/
theorem stackAliasEffects : Obligations.StackAliasEffects := by
  obtain ⟨-, -, hover⟩ := overCopiesSecond
  refine ⟨fun s x rest => endsWithStack_drop, fun s x y rest he => ?_, fun s x rest => endsWithStack_dup,
    fun s x => endsWithStack_nip_single⟩
  obtain ⟨-, hcopies, -⟩ := hover s
  exact ⟨endsWithStack_swap he, endsWithStack_nip he, fun hr => hcopies x y rest he (hr rfl)⟩

end Sys2Proof.Proofs.StackAliases
end

section
/-! PROOFS. XFER by its fields: the order of its faults, what it does where nothing stops it, and its settings CALL and
RET. -/

namespace Sys2Proof.Proofs.Transfer

open Sys2Proof.Machine Sys2Proof.Claims Sys2Proof.Proofs.Scope Sys2Proof.Proofs.Effects Sys2Proof.Proofs.AluResults
  Sys2Proof.Proofs.PerInstruction Sys2Proof.Proofs.MemoryAccess

/-! ## The stages of XFER (R175, R217) -/

section
variable {s u : State} {rs m : StackMove} {r2p p2r x2p : Bool} {e : Fault} {target : Word}

theorem runXfer_of_reserved (h : m = .s1 ∨ (r2p = true ∧ x2p = true)) :
    runXfer rs r2p p2r m x2p s = .fault (.reservedEncoding (encode (.xfer rs r2p p2r m x2p)) s.pc) := by
  rw [runXfer, if_pos (by simpa using h)]

theorem fields_not_reserved (h1 : m ≠ .s1) (hc : r2p = true → x2p = false) :
    ¬ (decide (m = .s1) || (r2p && x2p)) = true := by
  simpa using ⟨h1, hc⟩

theorem moveFault_none_of_hasElement (h1 : m ≠ .s1) (he : HasElement s m) : s.moveFault m = none :=
  moveFault_none (fun h => absurd h h1) he

variable (h1 : m ≠ .s1) (hc : r2p = true → x2p = false) (he : HasElement s m)
include h1 hc he

theorem runXfer_of_returnTarget_error (ht : s.returnTarget rs r2p = .error e) :
    runXfer rs r2p p2r m x2p s = .fault e := by
  simp only [runXfer, if_neg (fields_not_reserved h1 hc), moveFault_none_of_hasElement h1 he, ht]

theorem runXfer_of_saveReturn_error (ht : s.returnTarget rs r2p = .ok target) (hu : s.saveReturn rs p2r = .error e) :
    runXfer rs r2p p2r m x2p s = .fault e := by
  simp only [runXfer, if_neg (fields_not_reserved h1 hc), moveFault_none_of_hasElement h1 he, ht, hu]

theorem runXfer_of_ok (ht : s.returnTarget rs r2p = .ok target) (hu : s.saveReturn rs p2r = .ok u) :
    runXfer rs r2p p2r m x2p s =
      ((u.setRp (movedRp s.rp rs)).xferStack m x2p).transfer (if x2p then s.x else target) := by
  simp only [runXfer, if_neg (fields_not_reserved h1 hc), moveFault_none_of_hasElement h1 he, ht, hu]

end

/-! ## The return stack, in the terms of the statements -/

/-- The state after the write of P2R, if there is one. -/
def savedReturn (s : State) (rs : StackMove) (p2r : Bool) : State :=
  if p2r then s.setWord (wordAddr (pushAddr s rs)) (s.pc + 2#32) else s

section
variable {s : State} {rs : StackMove} {r2p p2r : Bool} {w : Word}

theorem savedReturn_frame (s : State) (rs : StackMove) (p2r : Bool) :
    (savedReturn s rs p2r).estack = s.estack ∧ (savedReturn s rs p2r).fp = s.fp ∧ (savedReturn s rs p2r).bp = s.bp ∧
      (savedReturn s rs p2r).params = s.params ∧ (savedReturn s rs p2r).freeCount = s.freeCount := by
  cases p2r <;> exact ⟨rfl, rfl, rfl, rfl, rfl⟩

theorem saveReturn_of_exists (h : p2r = true → Claims.Exists s (aligned (pushAddr s rs))) :
    s.saveReturn rs p2r = .ok (savedReturn s rs p2r) := by
  cases p2r with
  | false => rfl
  | true =>
    rw [pushAddr_eq] at h
    rw [savedReturn, pushAddr_eq]
    exact memWrite_of_exists (h rfl) _

theorem saveReturn_of_not_exists (hp : p2r = true) (h : ¬ Claims.Exists s (aligned (pushAddr s rs))) :
    s.saveReturn rs p2r = .error (.unmappedAccess .write (aligned (pushAddr s rs))) := by
  rw [pushAddr_eq] at h ⊢
  rw [State.saveReturn, if_pos hp, memWrite_of_not_exists h]

theorem returnTarget_of_wordAt (h : r2p = true → WordAt s (aligned (popAddr s rs)) w) :
    s.returnTarget rs r2p = .ok (if r2p then w else s.pc + 2#32) := by
  cases r2p with
  | false => rfl
  | true =>
    rw [popAddr_eq] at h
    exact memRead_of_wordAt (h rfl)

/-- Where the word R2P reads exists, the read answers. -/
theorem returnTarget_of_exists (h : r2p = true → Claims.Exists s (aligned (popAddr s rs))) :
    ∃ v, s.returnTarget rs r2p = .ok v := by
  cases r2p with
  | false => exact ⟨_, rfl⟩
  | true =>
    have hmap := (exists_aligned_iff s _).1 (h rfl)
    rw [popAddr_eq] at hmap
    exact ⟨_, State.memRead_eq_ok.2 ⟨hmap, rfl⟩⟩

theorem returnTarget_of_not_exists (hr : r2p = true) (h : ¬ Claims.Exists s (aligned (popAddr s rs))) :
    s.returnTarget rs r2p = .error (.unmappedAccess .read (aligned (popAddr s rs))) := by
  rw [popAddr_eq] at h ⊢
  rw [State.returnTarget, if_pos hr, memRead_of_not_exists h]

end

/-! ## XFER where nothing stops it before its target -/

/-- What XFER has done when it comes to its target: the write of P2R, the move of RP, the pop of S = −1. -/
def beforeTarget (s : State) (rs : StackMove) (p2r : Bool) (m : StackMove) : State :=
  ((savedReturn s rs p2r).setRp (newRp s rs)).setStack (if m = .sm1 then s.estack.tail else s.estack)

/-- An X that X2P reads and finds uses no free value. -/
theorem xferStack_of_present {s : State} {m : StackMove} {x2p : Bool} (h : x2p = true → s.estack ≠ []) :
    s.xferStack m x2p = s.setStack (if m = .sm1 then s.estack.tail else s.estack) := by
  have hno : (x2p && s.estack.isEmpty) = false := by simpa using h
  simp only [State.xferStack, hno, Bool.false_eq_true, if_false, State.pop]
  split_ifs <;> rfl

theorem exec_xfer_eq_transfer {s : State} {rs m : StackMove} {r2p p2r x2p : Bool} {x w : Word} (h1 : m ≠ .s1)
    (hc : r2p = true → x2p = false) (he : HasElement s m) (hx : x2p = true → ∃ rest, s.estack = x :: rest)
    (hw : r2p = true → WordAt s (aligned (popAddr s rs)) w)
    (hex : p2r = true → Claims.Exists s (aligned (pushAddr s rs))) :
    exec (.xfer rs r2p p2r m x2p) s =
      (beforeTarget s rs p2r m).transfer (if x2p then x else if r2p then w else s.pc + 2#32) := by
  obtain ⟨hstack, -⟩ := savedReturn_frame s rs p2r
  have hpresent : x2p = true → ((savedReturn s rs p2r).setRp (movedRp s.rp rs)).estack ≠ [] := fun h => by
    obtain ⟨rest, hcons⟩ := hx h
    simp [hstack, hcons]
  have htarget : (if x2p then s.x else if r2p then w else s.pc + 2#32) =
      if x2p then x else if r2p then w else s.pc + 2#32 :=
    ite_congr rfl (fun h => (hx h).elim fun _ => State.x_cons) fun _ => rfl
  rw [exec_xfer, runXfer_of_ok h1 hc he (returnTarget_of_wordAt hw) (saveReturn_of_exists hex),
    xferStack_of_present hpresent, htarget, beforeTarget, newRp_eq, State.setRp_estack, hstack]

/-- Settles O27, cause by cause in the order of R217. -/
theorem xferFaultOrder : Obligations.XferFaultOrder := by
  intro s rs m r2p p2r x2p
  refine ⟨runXfer_of_reserved, fun h1 hc => ⟨?underflow, fun he => ⟨?read, ?write, ?odd⟩⟩⟩
  case underflow =>
    rintro rfl hempty
    exact runXfer_of_moveFault (moveFault_of_empty hempty) h1 (by simpa using hc) rs p2r
  case read =>
    intro hr hex
    exact runXfer_of_returnTarget_error h1 hc he (returnTarget_of_not_exists hr hex)
  case write =>
    intro hread hp hex
    obtain ⟨_, ht⟩ := returnTarget_of_exists hread
    exact runXfer_of_saveReturn_error h1 hc he ht (saveReturn_of_not_exists hp hex)
  case odd =>
    rintro x w target hx hw hex rfl hodd
    rw [exec_xfer_eq_transfer h1 hc he hx hw hex, transfer_of_odd hodd]

/-- Settles O41: the target decides what `beforeTarget` comes to, and only the write of P2R touches memory. -/
theorem xferMovesByItsFields : Obligations.XferMovesByItsFields := by
  rintro s rs m r2p p2r x2p x w target hwf h1 hc he hx hw hex rfl heven
  obtain ⟨-, hfp, hbp, hparams, hcount⟩ := savedReturn_frame s rs p2r
  refine ⟨_, (exec_xfer_eq_transfer h1 hc he hx hw hex).trans (transfer_of_even heven), rfl, rfl, rfl, hfp, hbp,
    hparams, hcount, ?_, ?_⟩
  · rintro rfl
    exact ⟨fun _ => rfl, rfl⟩
  · rintro rfl
    exact storedWord_of_setWord hwf ((exists_aligned_iff s _).1 (hex rfl)) rfl rfl rfl

/-! ## CALL and RET (R177, R178) -/

/-- Settles O43: CALL is XFER.RS1.SM1.P2R.X2P. -/
theorem callSavesReturnAddress : Obligations.CallSavesReturnAddress := by
  intro s x rest hwf hs heven hex
  obtain ⟨t, ht, hpc, hrp, hstack, hfp, hbp, hparams, hcount, -, hst⟩ :=
    xferMovesByItsFields s .s1 .sm1 false true true x 0#32 x hwf (by decide) nofun (fun _ => by simp [hs])
      (fun _ => ⟨rest, hs⟩) nofun (fun _ => hex) rfl heven
  rw [hs] at hstack
  exact ⟨t, ht, hpc, hstack, hrp, hfp, hbp, hparams, hcount, hst rfl⟩

/-- RET, XFER.RSM1.R2P, is the transfer to the word it reads of the state with RP moved. -/
theorem exec_ret_of_wordAt {s : State} {w : Word} (hw : WordAt s (aligned (popAddr s .sm1)) w) :
    exec .ret s = (s.setRp (word (s.rp.toNat + 4))).transfer w :=
  exec_xfer_eq_transfer (rs := .sm1) (m := .s0) (r2p := true) (p2r := false) (x2p := false) (x := 0#32) (by decide)
    (fun _ => rfl) nofun nofun (fun _ => hw) nofun

/-- Settles O44. -/
theorem retTakesReturnAddress : Obligations.RetTakesReturnAddress := by
  intro s w hw
  rw [exec_ret_of_wordAt hw]
  exact ⟨transfer_of_even, transfer_of_odd⟩

/-! ## A matched RET (R179) -/

section
variable {s t u : State} {a w : Word}

/-- A CALL that completes found an even X and a place for the return address. -/
theorem cons_and_exists_of_exec_call (h : exec .call s = .next t) :
    ∃ x rest, s.estack = x :: rest ∧ x.getLsbD 0 = false ∧ Claims.Exists s (aligned (pushAddr s .s1)) := by
  rw [exec_call, runXfer_eq_next] at h
  obtain ⟨-, -, hm, target, v, -, hsave, heven, -⟩ := h
  obtain ⟨x, rest, hs⟩ := List.exists_cons_of_ne_nil ((State.moveFault_eq_none.1 hm).2 rfl)
  obtain ⟨hf, -⟩ | ⟨-, hmap, -⟩ := State.saveReturn_eq_ok.1 hsave
  · cases hf
  · rw [if_pos rfl, State.x_cons hs] at heven
    exact ⟨x, rest, hs, heven, by rwa [exists_aligned_iff, pushAddr_eq]⟩

/-- RS = −1 takes back RS = +1. -/
theorem word_sub_add_four (v : Word) : word ((word (v.toNat - 4)).toNat + 4) = v :=
  calc
    word ((word (v.toNat - 4)).toNat + 4) = word (v.toNat - 4) + 4#32 := word_add_natCast _ 4
    _ = v - 4#32 + 4#32 := congrArg (· + 4#32) (word_sub_natCast v 4)
    _ = v := BitVec.sub_add_cancel v 4#32

/-- Under both disciplines, RET reads where the CALL that left its RP has written. -/
theorem popAddr_eq_pushAddr (hrp : u.rp = word (s.rp.toNat - 4)) (hp : u.params = s.params) :
    popAddr u .sm1 = pushAddr s .s1 := by
  unfold popAddr pushAddr
  rw [hp]
  cases s.params.discipline with
  | full => exact hrp
  | empty =>
    calc
      newRp u .sm1 = word (u.rp.toNat + 4) := rfl
      _ = s.rp := by rw [hrp, word_sub_add_four]

/-- A word is decided by the bytes whose word address is its own. -/
theorem wordAt_congr (hb : ∀ b, aligned b = aligned a → u.byteAt b = t.byteAt b) (h : WordAt t (aligned a) w) :
    WordAt u (aligned a) w := by
  have hbyte (k : Word) (hk : k.toNat < 4) : u.byteAt (aligned a + k) = t.byteAt (aligned a + k) := by
    apply hb
    rw [aligned_eq, aligned_eq, (wordAddr_add (wordAddr_wordAddr a) hk).1]
  have hbyte0 : u.byteAt (aligned a) = t.byteAt (aligned a) := by simpa using hbyte 0#32 (by decide)
  rwa [WordAt, hbyte0, hbyte 1#32 (by decide), hbyte 2#32 (by decide), hbyte 3#32 (by decide)]

end

/-- Settles O45: the saved word is the even PC + 2, and RET finds it where the CALL has put it. -/
theorem callThenRetReturns : Obligations.CallThenRetReturns := by
  intro s t u hwf hpc hcall hrp hparams hbytes
  obtain ⟨x, rest, hs, heven, hex⟩ := cons_and_exists_of_exec_call hcall
  obtain ⟨t', hcall', -, -, htrp, -, -, htparams, -, hsaved, -⟩ := callSavesReturnAddress s x rest hwf hs heven hex
  obtain rfl : t = t' := Host.Outcome.next.inj (hcall.symm.trans hcall')
  have hurp : u.rp = word (s.rp.toNat - 4) := hrp.trans htrp
  have hw : WordAt u (aligned (popAddr u .sm1)) (s.pc + 2#32) := by
    rw [popAddr_eq_pushAddr hurp (hparams.trans htparams)]
    exact wordAt_congr hbytes hsaved
  obtain ⟨hret, -⟩ := retTakesReturnAddress u _ hw
  rw [hret ((getLsbD_zero_nextPc s).trans hpc), hurp, word_sub_add_four]

end Sys2Proof.Proofs.Transfer
end

section
/-! PROOFS. FPADJ moves FP by its signed constant (R207). -/

namespace Sys2Proof.Proofs.Registers

open Sys2Proof.Machine Sys2Proof.Claims Sys2Proof.Proofs.Scope

/-- Adding the sign-extended constant is adding its signed value modulo 2^32 (R9, R96). -/
theorem word_add_toInt_eq_add_sext10 (v : Word) (c : BitVec 10) : word (v.toNat + c.toInt) = v + sext10 c := by
  rw [← sext10_toInt, word_add_toInt]

theorem exec_fpadj (c : BitVec 10) (s : State) : exec (.fpadj c) s = .next (s.setFp (s.fp + sext10 c)).advance :=
  execFpadj_eq_next.2 rfl

/-- Settles O57: no stack and no memory is involved, so FPADJ completes in every state. -/
theorem fpadjAddsToFp : Obligations.FpadjAddsToFp := by
  intro s c
  rw [word_add_toInt_eq_add_sext10]
  exact exec_fpadj c s

end Sys2Proof.Proofs.Registers
end
